-- ==== Sys2Proof/Word.lean ====
section
/-! DEFINITION. The word types of the core (00_scope.md R8: bit `i` has weight 2^i, every value unsigned) and the one way
a fixed-size buffer is filled from a function of its index. -/

namespace Sys2Proof

/-- One byte, bits 7..0 (R8). -/
abbrev Byte := BitVec 8

/-- One lane of the State: 64 bits, bit 63 the most significant (R8). -/
abbrev Lane := BitVec 64

/-- A 32-bit word: a command word (R51) or a register of the host window (R35). -/
abbrev Word := BitVec 32

/-- The 25 lanes of the State (R13), lane `(x, y)` at index `x + 5y` (R15). -/
abbrev Lanes := Vector Lane 25

/-- The `n` entries `f 0, …, f (n-1)`. -/
def tabulate {α : Type} (n : Nat) (f : Nat → α) : Vector α n :=
  ⟨⟨(List.range n).map f⟩, by simp⟩

end Sys2Proof
end

