-- ==== Sys2Proof/Syntax.lean ====
section
/-! DEFINITION. The sixteen commands of 30_encoding.md R54, one constructor per row of spec/opcode_table.json. Operands
are the unsigned natural numbers of R53. -/

namespace Sys2Proof

/-- A command. The operands are those of R52 and R53; everything else a command uses is implicit. -/
inductive Instr where
  /-- `SETLEN L` (R65): `L` is the digest length in bits. -/
  | setlen (L : Nat)
  /-- `ZERO` (R74). -/
  | zero
  /-- `PAD n` (R69): `n` is the message length in bytes. -/
  | pad (n : Nat)
  /-- `ABSORB` (R93). -/
  | absorb
  /-- `SQUEEZE` (R96). -/
  | squeeze
  /-- `THETA` (R76). -/
  | theta
  /-- `RHO` (R78). -/
  | rho
  /-- `PI` (R80). -/
  | pi
  /-- `CHI` (R82). -/
  | chi
  /-- `IOTA r` (R84): `r` is the round index. -/
  | iota (r : Nat)
  /-- `ROUND r` (R87): `r` is the round index. -/
  | round (r : Nat)
  /-- `PERMUTE` (R89). -/
  | permute
  /-- `SP_START L` (R101): `L` is the digest length in bits. -/
  | spStart (L : Nat)
  /-- `SP_ABSORB last` (R105): `last` marks the last block of the message. -/
  | spAbsorb (last : Bool)
  /-- `SP_SQUEEZE` (R107). -/
  | spSqueeze
  /-- `SP_CLEAR` (R109). -/
  | spClear
  deriving DecidableEq, Repr

/-- The mnemonic of R54. -/
def Instr.mnemonic : Instr → String
  | .setlen _ => "SETLEN"
  | .zero => "ZERO"
  | .pad _ => "PAD"
  | .absorb => "ABSORB"
  | .squeeze => "SQUEEZE"
  | .theta => "THETA"
  | .rho => "RHO"
  | .pi => "PI"
  | .chi => "CHI"
  | .iota _ => "IOTA"
  | .round _ => "ROUND"
  | .permute => "PERMUTE"
  | .spStart _ => "SP_START"
  | .spAbsorb _ => "SP_ABSORB"
  | .spSqueeze => "SP_SQUEEZE"
  | .spClear => "SP_CLEAR"

/-- The explicit operand, if the command has one (R54, R59). -/
def Instr.operand? : Instr → Option Nat
  | .setlen L => some L
  | .zero => none
  | .pad n => some n
  | .absorb => none
  | .squeeze => none
  | .theta => none
  | .rho => none
  | .pi => none
  | .chi => none
  | .iota r => some r
  | .round r => some r
  | .permute => none
  | .spStart L => some L
  | .spAbsorb last => some (if last then 1 else 0)
  | .spSqueeze => none
  | .spClear => none

/-- The assembler text of R59: `MNEMONIC` or `MNEMONIC operand`, the operand in decimal. -/
def Instr.asm (i : Instr) : String :=
  match i.operand? with
  | none => i.mnemonic
  | some k => i.mnemonic ++ " " ++ toString k

end Sys2Proof
end

