-- ==== Sys2Proof/WellFormed.lean ====
section
/-! DEFINITION. Which commands can be written as a word: the operand fits its field (30_encoding.md R52: `A` holds 0..255
and `B` holds 0..65535). Operands that fit but are out of range for the command are well formed; the command itself
rejects them (R57). -/

namespace Sys2Proof

/-- Every operand fits the field R52 gives it. -/
def Instr.wellFormed : Instr → Bool
  | .setlen L => decide (L < 65536)
  | .zero => true
  | .pad n => decide (n < 256)
  | .absorb => true
  | .squeeze => true
  | .theta => true
  | .rho => true
  | .pi => true
  | .chi => true
  | .iota r => decide (r < 256)
  | .round r => decide (r < 256)
  | .permute => true
  | .spStart L => decide (L < 65536)
  | .spAbsorb _ => true
  | .spSqueeze => true
  | .spClear => true

end Sys2Proof
end

