-- ==== Sys2Proof/Decode.lean ====
section
/-! DEFINITION. Command words (30_encoding.md). The decoder is the match and mask table of R55, total on every 32-bit word
and rejecting by name; the encoder places the fields of R52. -/

namespace Sys2Proof

/-- Why a word is no command: the three kinds of illegal word of R56. All three raise `E_ILL` (R117). -/
inductive Illegal where
  /-- The opcode value is none of the sixteen of R54. -/
  | unlistedOpcode
  /-- A listed opcode other than SP_ABSORB with a nonzero bit in a field the command does not use. -/
  | unusedFieldSet
  /-- SP_ABSORB with a bit of 31:9 set. -/
  | spAbsorbBitsSet
  deriving DecidableEq, Repr

/-- The field `OP`, bits 7:0 (R52). -/
def opField (w : Word) : Nat := (w.extractLsb' 0 8).toNat

/-- The field `A`, bits 15:8: the operands `n` and `r`, zero-extended (R52, R53). -/
def aField (w : Word) : Nat := (w.extractLsb' 8 8).toNat

/-- The field `B`, bits 31:16: the operand `L`, zero-extended (R52, R53). -/
def bField (w : Word) : Nat := (w.extractLsb' 16 16).toNat

/-- The operand `last`, bit 8 (R53). -/
def lastField (w : Word) : Bool := w.getLsbD 8

/-- One row of the table of R55, with the command its words stand for. -/
structure OpcodeRow where
  /-- The column `match` of R55. -/
  pattern : Word
  /-- The column `mask` of R55. -/
  mask : Word
  /-- The command a matching word is, its operands taken from the free bits. -/
  build : Word → Instr

/-- `w` is a word of this row: `(w AND mask) = match` (R55). -/
def OpcodeRow.covers (r : OpcodeRow) (w : Word) : Bool := w &&& r.mask == r.pattern

/-- The sixteen rows of R55, in its order. -/
def opcodeRows : List OpcodeRow :=
  [ ⟨0x00000001, 0x0000FFFF, fun w => .setlen (bField w)⟩,
    ⟨0x00000002, 0xFFFFFFFF, fun _ => .zero⟩,
    ⟨0x00000003, 0xFFFF00FF, fun w => .pad (aField w)⟩,
    ⟨0x00000004, 0xFFFFFFFF, fun _ => .absorb⟩,
    ⟨0x00000005, 0xFFFFFFFF, fun _ => .squeeze⟩,
    ⟨0x00000010, 0xFFFFFFFF, fun _ => .theta⟩,
    ⟨0x00000011, 0xFFFFFFFF, fun _ => .rho⟩,
    ⟨0x00000012, 0xFFFFFFFF, fun _ => .pi⟩,
    ⟨0x00000013, 0xFFFFFFFF, fun _ => .chi⟩,
    ⟨0x00000014, 0xFFFF00FF, fun w => .iota (aField w)⟩,
    ⟨0x00000015, 0xFFFF00FF, fun w => .round (aField w)⟩,
    ⟨0x00000016, 0xFFFFFFFF, fun _ => .permute⟩,
    ⟨0x00000020, 0x0000FFFF, fun w => .spStart (bField w)⟩,
    ⟨0x00000021, 0xFFFFFEFF, fun w => .spAbsorb (lastField w)⟩,
    ⟨0x00000022, 0xFFFFFFFF, fun _ => .spSqueeze⟩,
    ⟨0x00000023, 0xFFFFFFFF, fun _ => .spClear⟩ ]

/-- The opcode values of R54. -/
def listedOpcodes : List Nat :=
  [0x01, 0x02, 0x03, 0x04, 0x05, 0x10, 0x11, 0x12, 0x13, 0x14, 0x15, 0x16, 0x20, 0x21, 0x22, 0x23]

/-- The name of the kind of illegal word `w` is, for a word that no row covers (R56). -/
def illegalKind (w : Word) : Illegal :=
  if opField w ∉ listedOpcodes then .unlistedOpcode
  else if opField w = 0x21 then .spAbsorbBitsSet
  else .unusedFieldSet

/-- The decoder (R55, R56): every 32-bit word is one command or is illegal. -/
def decode (w : Word) : Except Illegal Instr :=
  match opcodeRows.find? (fun r => r.covers w) with
  | some r => .ok (r.build w)
  | none => .error (illegalKind w)

/-- A command word from its three fields (R52): `{B, A, OP}`. -/
def commandWord (op a b : Nat) : Word :=
  BitVec.ofNat 16 b ++ BitVec.ofNat 8 a ++ BitVec.ofNat 8 op

/-- The word of a command (R52, R54); unused fields are zero (R55). -/
def encode : Instr → Word
  | .setlen L => commandWord 0x01 0 L
  | .zero => commandWord 0x02 0 0
  | .pad n => commandWord 0x03 n 0
  | .absorb => commandWord 0x04 0 0
  | .squeeze => commandWord 0x05 0 0
  | .theta => commandWord 0x10 0 0
  | .rho => commandWord 0x11 0 0
  | .pi => commandWord 0x12 0 0
  | .chi => commandWord 0x13 0 0
  | .iota r => commandWord 0x14 r 0
  | .round r => commandWord 0x15 r 0
  | .permute => commandWord 0x16 0 0
  | .spStart L => commandWord 0x20 0 L
  | .spAbsorb last => commandWord 0x21 (if last then 1 else 0) 0
  | .spSqueeze => commandWord 0x22 0 0
  | .spClear => commandWord 0x23 0 0

/-- The word an `nbits`-bit number of the opcode table's numbering stands for: bit 0 is bit 0 of the command word, and
the bits above `nbits` are 0. A command is one word (R51), so no other layout arises. -/
def tableWord (nbits w : Nat) : Word := BitVec.ofNat 32 (w % 2 ^ nbits)

/-- The command the decoder reads from a word given in the opcode table's numbering. -/
def decodeTableWord (nbits w : Nat) : Option Instr :=
  match decode (tableWord nbits w) with
  | .ok i => some i
  | .error _ => none

end Sys2Proof
end

