-- ==== Sys2Proof/Config.lean ====
section
/-! DEFINITION. The free values of the model: what 10_state.md R32 leaves unspecified after a reset ("a model must treat
the content as an arbitrary value it knows nothing about, different on every reset"). Each is a constant with no body:
no proof can see its value. The first argument counts the resets, so two resets need not leave the same content.
See log 4. -/

namespace Sys2Proof.Config

/-- Lane number `lane` of `S` after reset number `epoch` (R32: unspecified). -/
opaque powerOnLane (epoch lane : Nat) : BitVec 64

/-- Byte `i` of `BUF` after reset number `epoch` (R32: unspecified). -/
opaque powerOnBuf (epoch i : Nat) : BitVec 8

/-- Byte `i` of `OUT` after reset number `epoch` (R32: unspecified). -/
opaque powerOnOut (epoch i : Nat) : BitVec 8

end Sys2Proof.Config
end

