-- ==== Sys2Proof/Machine/State.lean ====
section
/-! DEFINITION. The state of the core (10_state.md) as plain data, the host's moves that drive it, the reasons a step could
stop, and the state after reset (R32). -/

namespace Sys2Proof.Machine

/-- `PHASE`, the state of the sponge state machine (R21, R99). Its two-bit codes are `Phase.code`. -/
inductive Phase where
  /-- 0: no sponge; the host owns `S` (direct mode). -/
  | uninit
  /-- 1: a sponge is taking blocks. -/
  | absorbing
  /-- 2: the last block has been absorbed. -/
  | squeezing
  /-- 3: the digest is in `OUT`. -/
  | done
  deriving DecidableEq, Repr

/-- What `ERR` can hold (R112); codes 5 to 15 are never written. Its four-bit codes are `Err.code`. -/
inductive Err where
  /-- 0 `E_NONE`: the latest command completed. -/
  | eNone
  /-- 1 `E_CFG`: unsupported digest length (R113). -/
  | eCfg
  /-- 2 `E_PRE`: precondition violation (R114). -/
  | ePre
  /-- 3 `E_SEQ`: sequence or ownership error (R115). -/
  | eSeq
  /-- 4 `E_ILL`: the word is no command (R117). -/
  | eIll
  deriving DecidableEq, Repr

/-- `PRM`, the digest-parameter record: four 32-bit read-only registers (R19). -/
structure Prm where
  /-- `PRM.L`: digest length in bits. -/
  L : Word
  /-- `PRM.rate`: rate in bits. -/
  rate : Word
  /-- `PRM.cap`: capacity in bits. -/
  cap : Word
  /-- `PRM.ssb`: state size in bytes. -/
  ssb : Word
  deriving DecidableEq, Repr

/-- One move of the host, the machine's only input (log 1). -/
inductive HostMove where
  /-- `MemRead(addr, n)` (R36). -/
  | read (addr n : Nat)
  /-- `MemWrite(addr, n, v)` (R37); a write to `CMD` issues `v`'s low 32 bits as a command (R35, R58). -/
  | write (addr n : Nat) (v : BitVec 64)
  /-- A reset, the event outside the command stream of R126 (log 5). -/
  | reset
  deriving DecidableEq, Repr

/-- What the interface answered to the latest host access (R36, R37); the model's own field (log 2). -/
inductive Response where
  /-- No access has been answered since reset. -/
  | silent
  /-- An admitted read returned this value, zero-extended to 64 bits. -/
  | value (v : BitVec 64)
  /-- An admitted write completed; for a write to `CMD`, the command has run or raised its error (R48). -/
  | accepted
  /-- The access was not admitted and changed nothing (R41). -/
  | refused
  deriving DecidableEq, Repr

/-- The core's state, and the three fields of the model's own at the end. -/
structure State where
  /-- `S`: the 25 lanes (R13); the bytes `SB[i]` are a view of them (R15). -/
  lanes : Lanes
  /-- `BUF[0..143]`: the block buffer (R26). -/
  buf : Vector Byte 144
  /-- `OUT[0..63]`: the digest buffer (R27). -/
  out : Vector Byte 64
  /-- `PRM`: the parameter registers (R19). -/
  prm : Prm
  /-- `PV`: parameters valid (R20). -/
  pv : Bool
  /-- `PHASE` (R21). -/
  phase : Phase
  /-- `OCNT`: how many bytes of `OUT` are a digest (R22). -/
  ocnt : Word
  /-- `ERR`: the result of the latest command (R24). -/
  err : Err
  /-- `EF`: the sticky error flag (R25). -/
  ef : Bool
  /-- The host's moves not yet taken, oldest first (log 1). -/
  pending : List HostMove
  /-- The answer to the latest host access (log 2). -/
  response : Response
  /-- How many resets there have been, the argument of the free values of `Config` (log 4). -/
  resets : Nat
  deriving DecidableEq, Repr

/-- No behaviour the spec gives the core stops the machine: its errors are `ERR` codes (R116, R120) and a bad host access
is answered `refused` (R41). So no fault exists and none is raised (log 12). Safe. -/
inductive Fault where
  deriving DecidableEq, Repr

/-- Why a step has no meaning. -/
inductive Refusal where
  /-- Raised by `exec` alone, for a command whose meaning is not modelled. Safe: nothing can be proved of such a step.
  No command of this model raises it. -/
  | notModelled (mnemonic : String)
  deriving DecidableEq, Repr

/-- The answer of a step of this machine. -/
abbrev Outcome := Host.Outcome State Fault Refusal

/-- `PRM` with all four registers zero, as while `PV = 0` (R19). -/
def Prm.zero : Prm := ⟨0, 0, 0, 0⟩

/-- The state right after reset number `epoch`, with the host's moves `moves` still to come (R32, R126). `S`, `BUF` and
`OUT` are unspecified: free values (log 4). -/
def State.afterReset (epoch : Nat) (moves : List HostMove) : State where
  lanes := tabulate 25 (Config.powerOnLane epoch)
  buf := tabulate 144 (Config.powerOnBuf epoch)
  out := tabulate 64 (Config.powerOnOut epoch)
  prm := Prm.zero
  pv := false
  phase := .uninit
  ocnt := 0
  err := .eNone
  ef := false
  pending := moves
  response := .silent
  resets := epoch

/-- The machine right after power-on (R32): no move of the host has come yet. -/
def State.reset : State := State.afterReset 0 []

end Sys2Proof.Machine
end

