-- ==== Sys2Proof/Machine/Flags.lean ====
section
/-! DEFINITION. The codes of `PHASE` and `ERR`, and the `STATUS` register they are read in (10_state.md R21, R23, R24;
60_exceptions.md R112). The core has no condition codes (R25). -/

namespace Sys2Proof.Machine

/-- The two-bit code of a phase (R21). -/
def Phase.code : Phase → BitVec 2
  | .uninit => 0
  | .absorbing => 1
  | .squeezing => 2
  | .done => 3

/-- The four-bit code of an error (R112). -/
def Err.code : Err → BitVec 4
  | .eNone => 0
  | .eCfg => 1
  | .ePre => 2
  | .eSeq => 3
  | .eIll => 4

/-- `STATUS` (R23): `PHASE` in 1:0, `PV` in 2, `EF` in 3, `ERR` in 7:4, zero above. -/
def statusWord (s : State) : Word :=
  0#24 ++ s.err.code ++ BitVec.ofBool s.ef ++ BitVec.ofBool s.pv ++ s.phase.code

end Sys2Proof.Machine
end

