-- ==== Sys2Proof/Machine/Tables.lean ====
section
/-! DEFINITION. The constants of 00_scope.md R7: the round constants (R28), the rotation offsets (R29), the pad markers
(R70, 90 C1, 93 U11), the legal digest lengths. The values are the spec's, which marks them as general knowledge
(93 G1, G2, G5; log 10). -/

namespace Sys2Proof.Machine

/-- `RC[0..23]`, the round constants (R28). -/
def roundConstants : List Lane :=
  [ 0x0000000000000001, 0x0000000000008082, 0x800000000000808A, 0x8000000080008000,
    0x000000000000808B, 0x0000000080000001, 0x8000000080008081, 0x8000000000008009,
    0x000000000000008A, 0x0000000000000088, 0x0000000080008009, 0x000000008000000A ] ++
  [ 0x000000008000808B, 0x800000000000008B, 0x8000000000008089, 0x8000000000008003,
    0x8000000000008002, 0x8000000000000080, 0x000000000000800A, 0x800000008000000A,
    0x8000000080008081, 0x8000000000008080, 0x0000000080000001, 0x8000000080008008 ]

/-- `RC[r]` (R28). Commands use it for `r` in 0..23 only (R84, R87). -/
def roundConstant (r : Nat) : Lane := roundConstants.getD r 0

/-- The rotation offsets, one row per `x`, indexed by `y` (R29). -/
def rotationOffsets : List (List Nat) :=
  [ [ 0, 36,  3, 41, 18],
    [ 1, 44, 10, 45,  2],
    [62,  6, 43, 15, 61],
    [28, 55, 25, 21, 56],
    [27, 20, 39,  8, 14] ]

/-- `ROT[x][y]` (R29): the first index is `x`. -/
def rotationOffset (x y : Nat) : Nat := (rotationOffsets.getD x []).getD y 0

/-- How many rounds the permutation has (R7: `NR`). -/
def roundCount : Nat := 24

/-- `SSB`, the size of the State in bytes (R7, R63). -/
def stateSizeBytes : Nat := 200

/-- `LSET`, the legal digest lengths in bits (R7, R63). -/
def legalLengths : List Nat := [224, 256, 384, 512]

/-- The pad marker bytes of R70. -/
structure PadProfile where
  /-- `PAD_START`: the first pad byte. -/
  first : Byte
  /-- `PAD_END`: the last pad byte. -/
  last : Byte
  deriving DecidableEq, Repr

/-- `PAD_BOTH`, the pad byte when one byte is free: `PAD_START | PAD_END` (R7). -/
def PadProfile.both (p : PadProfile) : Byte := p.first ||| p.last

/-- The SHA-3 profile (R70): the machine's. -/
def sha3Pad : PadProfile := ⟨0x06, 0x80⟩

/-- The D0-literal profile (90 C1, 93 U11): for comparison only, no command uses it (log 10). -/
def d0LiteralPad : PadProfile := ⟨0x60, 0x01⟩

end Sys2Proof.Machine
end

