-- ==== Sys2Proof/Machine/Ops.lean ====
section
/-! DEFINITION. The shared operations: lanes and their bytes (10_state.md R13, R15; 00_scope.md R9, R10), the two buffers,
raising an error (60_exceptions.md R116), completing (R24), and the shape every command has (30_encoding.md R58). -/

namespace Sys2Proof.Machine

/-! ### Lanes -/

/-- Lane number `j` (R15: lane `(x, y)` is number `x + 5y`). There is none above 24; the rules never ask for one. -/
def laneAt (A : Lanes) (j : Nat) : Lane := A.toList.getD j 0

/-- `A[x,y]` (R13), for `x` and `y` in 0..4. -/
def lane (A : Lanes) (x y : Nat) : Lane := laneAt A (x + 5 * y)

/-- The State whose lane `(x, y)` is `f x y`: all 25 lanes written at once (R11: `S' = f(S)`). -/
def grid (f : Nat → Nat → Lane) : Lanes := tabulate 25 fun j => f (j % 5) (j / 5)

/-- The all-zero State (R74, R101). -/
def zeroLanes : Lanes := grid fun _ _ => 0

/-- `rotl64(a, n)`, 0 ≤ n ≤ 63: left rotation (R9). -/
def rotl64 (a : Lane) (n : Nat) : Lane :=
  if n = 0 then a else a <<< n ||| a >>> (64 - n)

/-! ### Bytes of lanes -/

/-- Byte `k` of a lane, bits `8k+7 : 8k` (R15, R38). -/
def byteOfLane (v : Lane) (k : Nat) : Byte := v.extractLsb' (8 * k) 8

/-- The lane whose byte `k` is `b k`, least significant first (R15): `{b 7, …, b 0}`. -/
def laneOfBytes (b : Nat → Byte) : Lane :=
  b 7 ++ b 6 ++ b 5 ++ b 4 ++ b 3 ++ b 2 ++ b 1 ++ b 0

/-- `SB[i]`, byte `i` of the serialised State, `i` in 0..199 (R15). -/
def stateByte (A : Lanes) (i : Nat) : Byte := byteOfLane (laneAt A (i / 8)) (i % 8)

/-- The State whose bytes are `b 0, …, b 199` (R15). -/
def lanesOfBytes (b : Nat → Byte) : Lanes :=
  tabulate 25 fun j => laneOfBytes fun k => b (8 * j + k)

/-! ### The two buffers -/

/-- `BUF[i]`, `i` in 0..143 (R26). -/
def bufByte (B : Vector Byte 144) (i : Nat) : Byte := B.toList.getD i 0

/-- `OUT[i]`, `i` in 0..63 (R27). -/
def outByte (O : Vector Byte 64) (i : Nat) : Byte := O.toList.getD i 0

/-- The bytes `old` with the `n` bytes from `base` on replaced by the low `n` bytes of `v`, little-endian (R37). -/
def overlay (old : Nat → Byte) (base n : Nat) (v : Lane) (i : Nat) : Byte :=
  if base ≤ i ∧ i < base + n then byteOfLane v (i - base) else old i

/-! ### Errors and completion -/

/-- `raise e` (R116): `ERR <- code`, `EF <- 1`, and nothing else changes. This is all there is to taking an error: nothing is
saved, no mode changes, control goes nowhere, and so there is nothing to return from (R120). -/
def raise (e : Err) (s : State) : Outcome := .next { s with err := e, ef := true }

/-- The fifth step of R58: a command that completes leaves `ERR = 0` and `EF` as it was (R24, R25). -/
def complete (s : State) : Outcome := .next { s with err := .eNone }

/-- The shape of every command after decoding (R58, R118): `legal` is the test of `PHASE` and `PV` (R123), `operand` the
operand that passed its range test or the error it raises, `effect` the command's own effect. -/
def runCommand {α : Type} (legal : Bool) (operand : Except Err α) (effect : α → State → State) (s : State) : Outcome :=
  match legal, operand with
  | false, _ => raise .eSeq s
  | true, .error e => raise e s
  | true, .ok a => complete (effect a s)

end Sys2Proof.Machine
end

