-- ==== Sys2Proof/Machine/Operands.lean ====
section
/-! DEFINITION. Operands and legality: the parameter function (40_params.md R63), the byte counts every rule derives from
`PRM` (R19), the range tests of `n` and `r` (60_exceptions.md R114), and the columns of the legality table (R123). -/

namespace Sys2Proof.Machine

/-- The parameter record of a digest length, by the formulas of R63. -/
def prmOf (L : Nat) : Prm :=
  { L := BitVec.ofNat 32 L
    rate := BitVec.ofNat 32 (1600 - 2 * L)
    cap := BitVec.ofNat 32 (2 * L)
    ssb := BitVec.ofNat 32 stateSizeBytes }

/-- `Params(L)` (R63): fails with `E_CFG` for any `L` outside `LSET` (R113). -/
def params (L : Nat) : Except Err Prm :=
  if L ∈ legalLengths then .ok (prmOf L) else .error .eCfg

/-- `RB = PRM.rate / 8`, the rate in bytes (R19). -/
def Prm.rateBytes (p : Prm) : Nat := p.rate.toNat / 8

/-- `DB = PRM.L / 8`, the digest length in bytes (R19). -/
def Prm.digestBytes (p : Prm) : Nat := p.L.toNat / 8

/-- The range test of PAD (R69, R114 a): `n < RB`, else `E_PRE`. -/
def padLength (p : Prm) (n : Nat) : Except Err Nat :=
  if n < p.rateBytes then .ok n else .error .ePre

/-- The range test of IOTA and ROUND (R84, R87, R114 b): `r ≤ 23`, else `E_PRE`. -/
def roundIndex (r : Nat) : Except Err Nat :=
  if r < roundCount then .ok r else .error .ePre

/-- A command without a tested operand. -/
def noOperand : Except Err Unit := .ok ()

/-- Direct mode: `PHASE = UNINIT`, the host owns `S` (R123). -/
def State.direct (s : State) : Bool := s.phase == .uninit

/-- Direct mode with parameters loaded (R123, the entries `✓ PV`). -/
def State.directWithParams (s : State) : Bool := s.phase == .uninit && s.pv

/-- Load the parameter registers and set `PV` (R65, R101). -/
def State.loadParams (p : Prm) (s : State) : State := { s with prm := p, pv := true }

end Sys2Proof.Machine
end

