-- ==== Sys2Proof/Machine/Keccak.lean ====
section
/-! DEFINITION. The permutation as pure functions on the State: the five step mappings (42_step_mappings.md R73 to R83), the
round (43_round_permutation.md R85) and the 24-round driver (R88). Each step reads only its input. -/

namespace Sys2Proof.Machine

/-- `C[x]`, the parity of column `x` (R75). -/
def columnParity (A : Lanes) (x : Nat) : Lane :=
  lane A x 0 ^^^ lane A x 1 ^^^ lane A x 2 ^^^ lane A x 3 ^^^ lane A x 4

/-- `D[x] = C[x-1] XOR rotl64(C[x+1], 1)`, indices mod 5 (R75). -/
def thetaD (A : Lanes) (x : Nat) : Lane :=
  columnParity A ((x + 4) % 5) ^^^ rotl64 (columnParity A ((x + 1) % 5)) 1

/-- `Theta(A)` (R75). -/
def thetaStep (A : Lanes) : Lanes := grid fun x y => lane A x y ^^^ thetaD A x

/-- `Rho(A)` (R77). -/
def rhoStep (A : Lanes) : Lanes := grid fun x y => rotl64 (lane A x y) (rotationOffset x y)

/-- `Pi(A)` (R79), read from the destination: `A'[x,y] = A[(x + 3y) mod 5, x]`. -/
def piStep (A : Lanes) : Lanes := grid fun x y => lane A ((x + 3 * y) % 5) x

/-- `Chi(A)` (R81). -/
def chiStep (A : Lanes) : Lanes :=
  grid fun x y => lane A x y ^^^ (~~~(lane A ((x + 1) % 5) y) &&& lane A ((x + 2) % 5) y)

/-- `Iota(A, r)`, 0 ≤ r ≤ 23 (R83). -/
def iotaStep (A : Lanes) (r : Nat) : Lanes :=
  grid fun x y => if x = 0 ∧ y = 0 then lane A 0 0 ^^^ roundConstant r else lane A x y

/-- `Round(A, r)` (R85): Theta first, Iota last. -/
def roundStep (A : Lanes) (r : Nat) : Lanes :=
  iotaStep (chiStep (piStep (rhoStep (thetaStep A)))) r

/-- `KeccakF(A)` (R88): rounds 0, 1, …, 23 in ascending order. -/
def keccakF (A : Lanes) : Lanes := (List.range roundCount).foldl roundStep A

end Sys2Proof.Machine
end

