-- ==== Sys2Proof/Machine/Sponge.lean ====
section
/-! DEFINITION. The sponge's data path as pure functions: the padded block (41_padding.md R69), XOR of a block
(44_absorb_squeeze.md R92), the squeeze loop (R95), and what the whole sponge computes (45_sponge_fsm.md R110). -/

namespace Sys2Proof.Machine

/-- Byte `i` of the block after `PAD n` with rate `RB` and marker profile `p`, over the bytes `old` (R69). Bytes below `n` and
from `RB` on keep their value. -/
def padByte (p : PadProfile) (RB n : Nat) (old : Nat → Byte) (i : Nat) : Byte :=
  if i < n ∨ RB ≤ i then old i
  else if RB - n = 1 then p.both
  else if i = n then p.first
  else if i = RB - 1 then p.last
  else 0

/-- `XorBlock(A, blk, RB)` (R92), byte by byte. -/
def xorBlock (A : Lanes) (blk : Nat → Byte) (RB : Nat) : Lanes :=
  lanesOfBytes fun i => if i < RB then stateByte A i ^^^ blk i else stateByte A i

/-- The loop of R95 with `need = DB - o` bytes still wanted: the State it ends with and the bytes it gives. `fuel` bounds the
chunks; a rate of at least one byte never runs out of it when `need ≤ fuel` (log 8). -/
def squeezeLoop : (fuel : Nat) → (A : Lanes) → (need RB : Nat) → Lanes × List Byte
  | 0, A, _, _ => (A, [])
  | fuel + 1, A, need, RB =>
    let m := min need RB
    let chunk := (List.range m).map (stateByte A)
    if m = need then (A, chunk)
    else
      let r := squeezeLoop fuel (keccakF A) (need - m) RB
      (r.1, chunk ++ r.2)

/-- `SqueezeOut(A, DB, RB)` (R95). -/
def squeezeOut (A : Lanes) (DB RB : Nat) : Lanes × List Byte := squeezeLoop (DB + 1) A DB RB

/-- `OUT` after a squeeze that gave the bytes `d` for a digest of `DB` bytes; bytes from `DB` on keep their value (R96). -/
def digestInto (O : Vector Byte 64) (DB : Nat) (d : List Byte) : Vector Byte 64 :=
  tabulate 64 fun i => if i < DB then d.getD i 0 else outByte O i

/-! ### What the sponge computes (R110) -/

/-- Byte `i` of block `P_j` of the message `M` padded to the rate `RB`: message bytes, and on the last block
(`j = len div RB`) the pad after them (R103, R110). -/
def paddedBlock (RB : Nat) (M : List Byte) (j : Nat) (i : Nat) : Byte :=
  if j < M.length / RB then M.getD (j * RB + i) 0
  else padByte sha3Pad RB (M.length % RB) (fun k => M.getD (j * RB + k) 0) i

/-- `S_final`: the blocks absorbed in order from the zero State, each followed by the permutation (R110). -/
def spongeState (RB : Nat) (M : List Byte) : Lanes :=
  (List.range (M.length / RB + 1)).foldl (fun A j => keccakF (xorBlock A (paddedBlock RB M j) RB)) zeroLanes

/-- The digest of `M` for digest length `L`: the first `L/8` bytes of `S_final` (R110). -/
def spongeDigest (L : Nat) (M : List Byte) : List Byte :=
  (List.range (L / 8)).map (stateByte (spongeState ((1600 - 2 * L) / 8) M))

end Sys2Proof.Machine
end

