-- ==== Sys2Proof/Machine/Padding.lean ====
section
/-! DEFINITION. Padding: PAD (41_padding.md). -/

namespace Sys2Proof.Machine

/-- `BUF` completed to one padded block of `RB` bytes (R69), with the machine's markers (R70). -/
def padBuf (RB n : Nat) (s : State) : State :=
  { s with buf := tabulate 144 (padByte sha3Pad RB n (bufByte s.buf)) }

/-- `PAD n` (R69): needs `PV = 1`, in every phase (R123). -/
def execPad (n : Nat) (s : State) : Outcome :=
  runCommand s.pv (padLength s.prm n) (padBuf s.prm.rateBytes) s

end Sys2Proof.Machine
end

