-- ==== Sys2Proof/Machine/Params.lean ====
section
/-! DEFINITION. The digest-length router: SETLEN (40_params.md). -/

namespace Sys2Proof.Machine

/-- `SETLEN L` (R65). -/
def execSetlen (L : Nat) (s : State) : Outcome :=
  runCommand s.direct (params L) State.loadParams s

end Sys2Proof.Machine
end

