-- ==== Sys2Proof/Machine/Steps.lean ====
section
/-! DEFINITION. State creation and the five step commands: ZERO, THETA, RHO, PI, CHI, IOTA (42_step_mappings.md). Each is
legal in direct mode only (R73, R123). -/

namespace Sys2Proof.Machine

/-- Replace the whole State by `f` of it (R11: `S' = f(S)`). -/
def mapLanes (f : Lanes → Lanes) (s : State) : State := { s with lanes := f s.lanes }

/-- A command without operand that applies `f` to `S` in direct mode. -/
def laneCommand (f : Lanes → Lanes) (s : State) : Outcome :=
  runCommand s.direct noOperand (fun _ => mapLanes f) s

/-- A command with a round index that applies `f r` to `S` in direct mode. -/
def indexedLaneCommand (f : Nat → Lanes → Lanes) (r : Nat) (s : State) : Outcome :=
  runCommand s.direct (roundIndex r) (fun r => mapLanes (f r)) s

/-- `ZERO` (R74). -/
def execZero (s : State) : Outcome := laneCommand (fun _ => zeroLanes) s

/-- `THETA` (R76). -/
def execTheta (s : State) : Outcome := laneCommand thetaStep s

/-- `RHO` (R78). -/
def execRho (s : State) : Outcome := laneCommand rhoStep s

/-- `PI` (R80). -/
def execPi (s : State) : Outcome := laneCommand piStep s

/-- `CHI` (R82). -/
def execChi (s : State) : Outcome := laneCommand chiStep s

/-- `IOTA r` (R84). -/
def execIota (r : Nat) (s : State) : Outcome := indexedLaneCommand (fun r A => iotaStep A r) r s

end Sys2Proof.Machine
end

