-- ==== Sys2Proof/Machine/Permutation.lean ====
section
/-! DEFINITION. The round and the permutation driver: ROUND, PERMUTE (43_round_permutation.md). -/

namespace Sys2Proof.Machine

/-- `ROUND r` (R87). -/
def execRound (r : Nat) (s : State) : Outcome := indexedLaneCommand (fun r A => roundStep A r) r s

/-- `PERMUTE` (R89). -/
def execPermute (s : State) : Outcome := laneCommand keccakF s

end Sys2Proof.Machine
end

