-- ==== Sys2Proof/Machine/DataPath.lean ====
section
/-! DEFINITION. The sponge data path in direct mode: ABSORB, SQUEEZE (44_absorb_squeeze.md). -/

namespace Sys2Proof.Machine

/-- XOR `BUF[0 .. RB-1]` into the rate region of `S` (R93). -/
def absorbBuf (s : State) : State :=
  { s with lanes := xorBlock s.lanes (bufByte s.buf) s.prm.rateBytes }

/-- Squeeze the digest from `S` into `OUT` and set `OCNT` (R96, R107). -/
def squeezeToOut (s : State) : State :=
  { s with
    lanes := (squeezeOut s.lanes s.prm.digestBytes s.prm.rateBytes).1
    out := digestInto s.out s.prm.digestBytes (squeezeOut s.lanes s.prm.digestBytes s.prm.rateBytes).2
    ocnt := BitVec.ofNat 32 s.prm.digestBytes }

/-- `ABSORB` (R93): the XOR alone, no permutation. -/
def execAbsorb (s : State) : Outcome :=
  runCommand s.directWithParams noOperand (fun _ => absorbBuf) s

/-- `SQUEEZE` (R96). -/
def execSqueeze (s : State) : Outcome :=
  runCommand s.directWithParams noOperand (fun _ => squeezeToOut) s

end Sys2Proof.Machine
end

