-- ==== Sys2Proof/Machine/SpongeFsm.lean ====
section
/-! DEFINITION. The sponge orchestrator: SP_START, SP_ABSORB, SP_SQUEEZE, SP_CLEAR (45_sponge_fsm.md R99, R100). -/

namespace Sys2Proof.Machine

/-- The effect of SP_START with the parameters `p` (R101). -/
def startSponge (p : Prm) (s : State) : State :=
  { s.loadParams p with lanes := zeroLanes, ocnt := 0, phase := .absorbing }

/-- The effect of SP_ABSORB (R105): XOR the block, permute, and leave ABSORBING on the last block. -/
def absorbAndPermute (last : Bool) (s : State) : State :=
  { s with
    lanes := keccakF (absorbBuf s).lanes
    phase := if last then .squeezing else s.phase }

/-- `SP_START L` (R101). -/
def execSpStart (L : Nat) (s : State) : Outcome :=
  runCommand s.direct (params L) startSponge s

/-- `SP_ABSORB last` (R105). -/
def execSpAbsorb (last : Bool) (s : State) : Outcome :=
  runCommand (s.phase == .absorbing) noOperand (fun _ => absorbAndPermute last) s

/-- `SP_SQUEEZE` (R107). -/
def execSpSqueeze (s : State) : Outcome :=
  runCommand (s.phase == .squeezing) noOperand (fun _ t => { squeezeToOut t with phase := .done }) s

/-- `SP_CLEAR` (R109): legal always; `PHASE` and `ERR` alone change. -/
def execSpClear (s : State) : Outcome :=
  runCommand true noOperand (fun _ t => { t with phase := .uninit }) s

end Sys2Proof.Machine
end

