-- ==== Sys2Proof/Machine/Dispatch.lean ====
section
/-! DEFINITION. One arm per command of 30_encoding.md R54. -/

namespace Sys2Proof.Machine

/-- Run a decoded command (R58, steps 2 to 5). -/
def exec (i : Instr) (s : State) : Host.Outcome State Fault Refusal :=
  match i with
  | .setlen L => Sys2Proof.Machine.execSetlen L s
  | .zero => Sys2Proof.Machine.execZero s
  | .pad n => Sys2Proof.Machine.execPad n s
  | .absorb => Sys2Proof.Machine.execAbsorb s
  | .squeeze => Sys2Proof.Machine.execSqueeze s
  | .theta => Sys2Proof.Machine.execTheta s
  | .rho => Sys2Proof.Machine.execRho s
  | .pi => Sys2Proof.Machine.execPi s
  | .chi => Sys2Proof.Machine.execChi s
  | .iota r => Sys2Proof.Machine.execIota r s
  | .round r => Sys2Proof.Machine.execRound r s
  | .permute => Sys2Proof.Machine.execPermute s
  | .spStart L => Sys2Proof.Machine.execSpStart L s
  | .spAbsorb last => Sys2Proof.Machine.execSpAbsorb last s
  | .spSqueeze => Sys2Proof.Machine.execSpSqueeze s
  | .spClear => Sys2Proof.Machine.execSpClear s

end Sys2Proof.Machine
end

