-- ==== Sys2Proof/Machine/HostPort.lean ====
section
/-! DEFINITION. The host window (20_memory.md): the region map, which accesses are admitted, what they read and write, and
the taking of the host's next move. -/

namespace Sys2Proof.Machine

/-- The regions of R34. -/
inductive Region where
  /-- 0x000–0x0C7: `S`. -/
  | state
  /-- 0x100–0x18F: `BUF`. -/
  | buf
  /-- 0x200–0x23F: `OUT`. -/
  | out
  /-- 0x300–0x31B: the registers of R35. -/
  | registers
  /-- Everything else. -/
  | unmapped
  deriving DecidableEq, Repr

/-- The address of `BUF[0]` (R34). -/
def bufBase : Nat := 0x100

/-- The address of `OUT[0]` (R34). -/
def outBase : Nat := 0x200

/-- The address of `CMD` (R35). -/
def cmdAddr : Nat := 0x300

/-- The region an address lies in (R34). -/
def regionOf (a : Nat) : Region :=
  if a < 0x0C8 then .state
  else if 0x100 ≤ a ∧ a < 0x190 then .buf
  else if 0x200 ≤ a ∧ a < 0x240 then .out
  else if 0x300 ≤ a ∧ a < 0x31C then .registers
  else .unmapped

/-- (a), (b) and (c) of R41: a width of 1, 2, 4 or 8, natural alignment, all bytes inside one mapped region. -/
def wellShaped (a n : Nat) : Bool :=
  decide (n ∈ [1, 2, 4, 8]) && decide (a % n = 0) && regionOf a != .unmapped &&
    (List.range n).all fun k => regionOf (a + k) == regionOf a

/-- Is a read admitted (R41)? Registers take 4-byte reads only, and `CMD` none (R35). -/
def readAdmitted (a n : Nat) : Bool :=
  wellShaped a n &&
    match regionOf a with
    | .state => true
    | .buf => true
    | .out => true
    | .registers => n == 4 && a != cmdAddr
    | .unmapped => false

/-- Is a write admitted (R41)? `S` in direct mode only (R42), `BUF` always, `OUT` never, of the registers `CMD` alone. -/
def writeAdmitted (s : State) (a n : Nat) : Bool :=
  wellShaped a n &&
    match regionOf a with
    | .state => s.phase == .uninit
    | .buf => true
    | .out => false
    | .registers => n == 4 && a == cmdAddr
    | .unmapped => false

/-- The byte at an address of the three data regions (R34); no byte elsewhere. -/
def peekByte (s : State) (a : Nat) : Option Byte :=
  match regionOf a with
  | .state => some (stateByte s.lanes a)
  | .buf => some (bufByte s.buf (a - bufBase))
  | .out => some (outByte s.out (a - outBase))
  | .registers => none
  | .unmapped => none

/-- The content of the readable register at an address (R35). -/
def registerValue (s : State) (a : Nat) : Word :=
  if a = 0x304 then statusWord s
  else if a = 0x308 then s.prm.L
  else if a = 0x30C then s.prm.rate
  else if a = 0x310 then s.prm.cap
  else if a = 0x314 then s.prm.ssb
  else s.ocnt

/-- The value of an admitted read (R36), zero-extended to 64 bits (log 9). -/
def readValue (s : State) (a n : Nat) : BitVec 64 :=
  match regionOf a with
  | .registers => (registerValue s a).setWidth 64
  | _ => laneOfBytes fun k => if k < n then (peekByte s (a + k)).getD 0 else 0

/-- An admitted write to a data region: the low `n` bytes of `v`, little-endian, all at once (R37). -/
def storeBytes (s : State) (a n : Nat) (v : BitVec 64) : State :=
  match regionOf a with
  | .state => { s with lanes := lanesOfBytes (overlay (stateByte s.lanes) a n v) }
  | .buf => { s with buf := tabulate 144 (overlay (bufByte s.buf) (a - bufBase) n v) }
  | .out => s
  | .registers => s
  | .unmapped => s

/-- What taking a host move leads to. -/
inductive Taken where
  /-- No command: the state after the move. -/
  | settled (s : State)
  /-- A write to `CMD` carried this word; it runs on this state. -/
  | command (w : Word) (s : State)
  deriving DecidableEq, Repr

/-- Answer an access: the move is gone, the response is there. -/
def State.answer (s : State) (rest : List HostMove) (r : Response) : State :=
  { s with pending := rest, response := r }

/-- `MemRead(addr, n)` (R36). -/
def hostRead (s : State) (rest : List HostMove) (a n : Nat) : Taken :=
  .settled (s.answer rest (if readAdmitted a n then .value (readValue s a n) else .refused))

/-- `MemWrite(addr, n, v)` (R37). A write to `CMD` issues the word it carries (R35, R58). -/
def hostWrite (s : State) (rest : List HostMove) (a n : Nat) (v : BitVec 64) : Taken :=
  if writeAdmitted s a n then
    if regionOf a = .registers then .command (v.setWidth 32) (s.answer rest .accepted)
    else .settled ((storeBytes s a n v).answer rest .accepted)
  else .settled (s.answer rest .refused)

/-- Take the host's next move (R45: one sequence, each move complete before the next). With none the core is idle (R125). -/
def takeMove (s : State) : Taken :=
  match s.pending with
  | [] => .settled s
  | .read a n :: rest => hostRead s rest a n
  | .write a n v :: rest => hostWrite s rest a n v
  | .reset :: rest => .settled (State.afterReset (s.resets + 1) rest)

end Sys2Proof.Machine
end

