-- ==== Sys2Proof/Machine/Step.lean ====
section
/-! DEFINITION. One step: the host's next move, and the command it issues if it is a write to `CMD`. -/

namespace Sys2Proof.Machine

/-- One step of the machine: take the host's next move (20_memory.md R45); if it issues a word, decode it and run the
command, or raise `E_ILL` (30_encoding.md R58). -/
def step (s : State) : Host.Outcome State Fault Refusal :=
  match takeMove s with
  | .settled t => .next t
  | .command w t =>
    match decode w with
    | .ok i => exec i t
    | .error _ => raise .eIll t

/-- `s` with the host's very next move a write of the given word to `CMD`, the one way a command is issued
(30_encoding.md R51; log 1). Moves that were pending stay behind it. -/
def State.withFetchWord (s : State) (nbits w : Nat) : State :=
  { s with pending := .write cmdAddr 4 ((tableWord nbits w).setWidth 64) :: s.pending }

end Sys2Proof.Machine
end

