-- ==== Sys2Proof/Machine/HostScript.lean ====
section
/-! DEFINITION. The host actions the spec names (30_encoding.md R60) as lists of host moves, and the host's procedure for a
whole message (45_sponge_fsm.md R103, R110). Nothing of the machine depends on this file. -/

namespace Sys2Proof.Machine

/-- Issue a command: write its word to `CMD` (R51). -/
def issue (i : Instr) : HostMove := .write cmdAddr 4 ((encode i).setWidth 64)

/-- `WRB`: bytes to ascending addresses from `base` (R60). -/
def wrb (base : Nat) (bytes : List Byte) : List HostMove :=
  bytes.mapIdx fun k b => .write (base + k) 1 (b.setWidth 64)

/-- `WRL (x,y), v`: write one lane (R60). -/
def wrl (x y : Nat) (v : Lane) : HostMove := .write (8 * (x + 5 * y)) 8 v

/-- `RDB`: read `m` bytes from `base` on (R60). -/
def rdb (base m : Nat) : List HostMove := (List.range m).map fun k => .read (base + k) 1

/-- `RDL (x,y)`: read one lane (R60). -/
def rdl (x y : Nat) : HostMove := .read (8 * (x + 5 * y)) 8

/-- `RDS`: read `STATUS` (R60). -/
def rds : HostMove := .read 0x304 4

/-- `HASH1 L, msg` (R60), for a message shorter than the rate. -/
def hash1 (L : Nat) (msg : List Byte) : List HostMove :=
  [issue .spClear, issue (.spStart L)] ++ wrb bufBase msg ++
    [issue (.pad msg.length), issue (.spAbsorb true), issue .spSqueeze] ++ rdb outBase (L / 8)

/-- The moves that absorb the full blocks `0 .. q-1` of `M` (R103, R110). -/
def fullBlockMoves (RB : Nat) (M : List Byte) (q : Nat) : List HostMove :=
  (List.range q).flatMap fun j => wrb bufBase ((M.drop (j * RB)).take RB) ++ [issue (.spAbsorb false)]

/-- The command sequence of R110 for the message `M` and the digest length `L`. -/
def spongeScript (L : Nat) (M : List Byte) : List HostMove :=
  let RB := (1600 - 2 * L) / 8
  [issue .spClear, issue (.spStart L)] ++ fullBlockMoves RB M (M.length / RB) ++
    wrb bufBase (M.drop (M.length / RB * RB)) ++
    [issue (.pad (M.length % RB)), issue (.spAbsorb true), issue .spSqueeze]

/-- The direct-mode sequence of R110: `SETLEN L; ZERO`, per block the bytes (and PAD on the last), `ABSORB; PERMUTE`, then
`SQUEEZE`. -/
def directScript (L : Nat) (M : List Byte) : List HostMove :=
  let RB := (1600 - 2 * L) / 8
  let q := M.length / RB
  [issue (.setlen L), issue .zero] ++
    ((List.range q).flatMap fun j =>
      wrb bufBase ((M.drop (j * RB)).take RB) ++ [issue .absorb, issue .permute]) ++
    wrb bufBase (M.drop (q * RB)) ++
    [issue (.pad (M.length % RB)), issue .absorb, issue .permute, issue .squeeze]

end Sys2Proof.Machine
end

