-- ==== Sys2Proof/Safety.lean ====
section
/-! DEFINITION. What a sound state of the core is, which commands are legal where (60_exceptions.md R123), and a run of commands. -/

namespace Sys2Proof.Machine

/-- `p` is one row of 40_params.md R64. -/
def Prm.isRow (p : Prm) : Prop := ∃ L ∈ legalLengths, p = prmOf L

/-- What holds in every state the core can be in: the relations 10_state.md, 45_sponge_fsm.md and 60_exceptions.md state
between its registers. -/
structure State.Inv (s : State) : Prop where
  /-- R19: the four registers are all zero when `PV = 0`. -/
  prm_zero : s.pv = false → s.prm = Prm.zero
  /-- R19: they hold one row of R64 when `PV = 1`. -/
  prm_row : s.pv = true → s.prm.isRow
  /-- R123: `PV = 1` in every phase but `UNINIT`. -/
  pv_of_sponge : s.phase ≠ .uninit → s.pv = true
  /-- R22: `OCNT` is 0 or the byte count of a legal digest. -/
  ocnt_legal : s.ocnt = 0 ∨ ∃ L ∈ legalLengths, s.ocnt = BitVec.ofNat 32 (L / 8)
  /-- R101, R107: no digest yet while a sponge absorbs or waits to be squeezed. -/
  ocnt_zero : s.phase = .absorbing ∨ s.phase = .squeezing → s.ocnt = 0
  /-- R107: in `DONE` the count is the whole digest's. -/
  ocnt_done : s.phase = .done → s.ocnt = BitVec.ofNat 32 s.prm.digestBytes
  /-- R116: an error code in `ERR` has set `EF`. -/
  ef_of_err : s.err ≠ .eNone → s.ef = true

/-- The legality table of 60_exceptions.md R123, row by row: may the command run in this phase, with this `PV`? -/
def legalIn : Instr → Phase → Bool → Bool
  | .setlen _, p, _ => p == .uninit
  | .zero, p, _ => p == .uninit
  | .pad _, .uninit, pv => pv
  | .pad _, .absorbing, _ => true
  | .pad _, .squeezing, _ => true
  | .pad _, .done, _ => true
  | .absorb, p, pv => p == .uninit && pv
  | .squeeze, p, pv => p == .uninit && pv
  | .theta, p, _ => p == .uninit
  | .rho, p, _ => p == .uninit
  | .pi, p, _ => p == .uninit
  | .chi, p, _ => p == .uninit
  | .iota _, p, _ => p == .uninit
  | .round _, p, _ => p == .uninit
  | .permute, p, _ => p == .uninit
  | .spStart _, p, _ => p == .uninit
  | .spAbsorb _, p, _ => p == .absorbing
  | .spSqueeze, p, _ => p == .squeezing
  | .spClear, _, _ => true

/-- Run commands one after the other, each after the previous has completed (30_encoding.md R58). -/
def runCommands : List Instr → State → Outcome
  | [], s => .next s
  | i :: is, s =>
    match exec i s with
    | .next t => runCommands is t
    | .fault f => .fault f
    | .refused r => .refused r

end Sys2Proof.Machine
end

