-- ==== Sys2Proof/Certificates/Slice0/Obligations.lean ====
section
/-! DEFINITION. The statements for the provers, each about the machine as the rules of the spec describe it. Where a
statement says `∃ A, … ∧ exec i s = .next { s with lanes := A, … }`, the clauses before it fix every lane of `A`, so the
whole next state is given: the command's effect and its frame at once. -/

open Sys2Proof Sys2Proof.Machine

/-! ### Command words -/

/-- 30_encoding.md R52 to R55: the word of a well-formed command decodes to that command. -/
def Obligations.DecodeEncodeAgree : Prop :=
  ∀ i : Instr, i.wellFormed = true → decode (encode i) = .ok i

/-- 30_encoding.md R55, R56: a word that decodes to a command is that command's word, and the command is well formed. -/
def Obligations.EncodeDecodeAgree : Prop :=
  ∀ (w : Word) (i : Instr), decode w = .ok i → i.wellFormed = true ∧ encode i = w

/-- 30_encoding.md R55, R56: which words are commands, by their three fields. -/
def Obligations.LegalWordsByFields : Prop :=
  ∀ w : Word, (∃ i, decode w = .ok i) ↔
    (opField w ∈ [0x01, 0x20] ∧ aField w = 0) ∨
    (opField w ∈ [0x03, 0x14, 0x15] ∧ bField w = 0) ∨
    (opField w = 0x21 ∧ aField w < 2 ∧ bField w = 0) ∨
    (opField w ∈ [0x02, 0x04, 0x05, 0x10, 0x11, 0x12, 0x13, 0x16, 0x22, 0x23] ∧ aField w = 0 ∧ bField w = 0)

/-- 30_encoding.md R55: no word matches two rows of the opcode table. -/
def Obligations.NoWordMatchesTwoRows : Prop :=
  ∀ (w : Word) (j k : Nat) (r q : OpcodeRow), opcodeRows[j]? = some r → opcodeRows[k]? = some q →
    r.covers w = true → q.covers w = true → j = k

/-- 30_encoding.md R62: the worked encodings, both ways, and the worked illegal words. -/
def Obligations.WorkedEncodings : Prop :=
  (∀ p ∈ ([(.setlen 256, 0x01000001), (.setlen 224, 0x00E00001), (.setlen 384, 0x01800001), (.setlen 512, 0x02000001),
      (.zero, 0x00000002), (.pad 0, 0x00000003), (.pad 43, 0x00002B03), (.pad 71, 0x00004703), (.absorb, 0x00000004),
      (.squeeze, 0x00000005), (.theta, 0x00000010), (.rho, 0x00000011), (.pi, 0x00000012), (.chi, 0x00000013),
      (.iota 0, 0x00000014), (.iota 23, 0x00001714), (.round 1, 0x00000115), (.permute, 0x00000016),
      (.spStart 256, 0x01000020), (.spAbsorb false, 0x00000021), (.spAbsorb true, 0x00000121),
      (.spSqueeze, 0x00000022), (.spClear, 0x00000023)] : List (Instr × Word)),
    encode p.1 = p.2 ∧ decode p.2 = .ok p.1) ∧
  (∀ w ∈ ([0x00000000, 0x00000110, 0x00000221, 0x00010003, 0x000000FF] : List Word), ∃ e, decode w = .error e)

/-! ### One step -/

/-- 30_encoding.md R58, 20_memory.md R35, R48: a write to `CMD` whose word decodes to `i` runs `i`; around it the step only
takes the move and answers it (log 1, log 2). -/
def Obligations.StepRunsDecodedCommand : Prop :=
  ∀ (s : State) (v : BitVec 64) (rest : List HostMove) (i : Instr),
    s.pending = .write 0x300 4 v :: rest → decode (v.setWidth 32) = .ok i →
    step s = exec i { s with pending := rest, response := .accepted }

/-- 60_exceptions.md R117: a word that is no command raises `E_ILL` and does nothing else. -/
def Obligations.IllegalWordRaisesIll : Prop :=
  ∀ (s : State) (v : BitVec 64) (rest : List HostMove),
    s.pending = .write 0x300 4 v :: rest → (∀ i, decode (v.setWidth 32) ≠ .ok i) →
    step s = .next { s with pending := rest, response := .accepted, err := .eIll, ef := true }

/-- 70_reset_and_hazards.md R138, 20_memory.md R45: every step answers a next state, and takes exactly the oldest move; with
no move the core is idle (60_exceptions.md R125). The list of moves is the model's own (log 1, log 3). -/
def Obligations.StepTakesOneMove : Prop :=
  ∀ s : State, ∃ t, step s = .next t ∧ t.pending = s.pending.tail ∧ (s.pending = [] → t = s)

/-- 20_memory.md R36, over the regions of R34: what a host read returns, and that it changes nothing. -/
def Obligations.HostReadGivesWindowBytes : Prop :=
  ∀ (s : State) (a n : Nat) (rest : List HostMove), s.pending = .read a n :: rest →
    (readAdmitted a n = true → ∃ v : BitVec 64,
      step s = .next { s with pending := rest, response := .value v } ∧
      v.toNat < 2 ^ (8 * n) ∧
      (∀ k, k < n →
        (a < 0xC8 → v.extractLsb' (8 * k) 8 = stateByte s.lanes (a + k)) ∧
        (0x100 ≤ a → a < 0x190 → v.extractLsb' (8 * k) 8 = bufByte s.buf (a - 0x100 + k)) ∧
        (0x200 ≤ a → a < 0x240 → v.extractLsb' (8 * k) 8 = outByte s.out (a - 0x200 + k)) ∧
        (0x300 ≤ a → v.extractLsb' (8 * k) 8 = (registerValue s a).extractLsb' (8 * k) 8))) ∧
    (readAdmitted a n = false → step s = .next { s with pending := rest, response := .refused })

/-- 20_memory.md R35: the six readable registers, and that `CMD` cannot be read nor the others written. -/
def Obligations.RegisterReadsShowState : Prop :=
  (∀ (s : State) (a : Nat) (v : Word) (rest : List HostMove),
    (a, v) ∈ [(0x304, statusWord s), (0x308, s.prm.L), (0x30C, s.prm.rate), (0x310, s.prm.cap), (0x314, s.prm.ssb),
      (0x318, s.ocnt)] →
    s.pending = .read a 4 :: rest →
    step s = .next { s with pending := rest, response := .value (v.setWidth 64) }) ∧
  (∀ (s : State) (rest : List HostMove), s.pending = .read 0x300 4 :: rest →
    step s = .next { s with pending := rest, response := .refused }) ∧
  (∀ (s : State) (a n : Nat) (v : BitVec 64) (rest : List HostMove), 0x300 < a → s.pending = .write a n v :: rest →
    step s = .next { s with pending := rest, response := .refused })

/-- 10_state.md R23 with the codes of R21 and 60_exceptions.md R112: the fields of `STATUS`. -/
def Obligations.StatusWordFields : Prop :=
  ∀ s : State,
    ((statusWord s).extractLsb' 0 2).toNat = (match s.phase with | .uninit => 0 | .absorbing => 1 | .squeezing => 2 | .done => 3) ∧
    (statusWord s).getLsbD 2 = s.pv ∧
    (statusWord s).getLsbD 3 = s.ef ∧
    ((statusWord s).extractLsb' 4 4).toNat =
      (match s.err with | .eNone => 0 | .eCfg => 1 | .ePre => 2 | .eSeq => 3 | .eIll => 4) ∧
    ∀ i, 8 ≤ i → (statusWord s).getLsbD i = false

/-- 20_memory.md R41, with the map of R34 and R35 written out: which accesses are admitted, and that one that is not changes
nothing. -/
def Obligations.AccessAdmissionRule : Prop :=
  (∀ a n : Nat, readAdmitted a n = true ↔
    (n = 1 ∨ n = 2 ∨ n = 4 ∨ n = 8) ∧ n ∣ a ∧
      (a + n ≤ 0xC8 ∨ (0x100 ≤ a ∧ a + n ≤ 0x190) ∨ (0x200 ≤ a ∧ a + n ≤ 0x240) ∨
        (n = 4 ∧ 0x304 ≤ a ∧ a + n ≤ 0x31C))) ∧
  (∀ (s : State) (a n : Nat), writeAdmitted s a n = true ↔
    (n = 1 ∨ n = 2 ∨ n = 4 ∨ n = 8) ∧ n ∣ a ∧
      ((a + n ≤ 0xC8 ∧ s.phase = .uninit) ∨ (0x100 ≤ a ∧ a + n ≤ 0x190) ∨ (n = 4 ∧ a = 0x300))) ∧
  (∀ (s : State) (a n : Nat) (rest : List HostMove), readAdmitted a n = false → s.pending = .read a n :: rest →
    step s = .next { s with pending := rest, response := .refused }) ∧
  (∀ (s : State) (a n : Nat) (v : BitVec 64) (rest : List HostMove), writeAdmitted s a n = false →
    s.pending = .write a n v :: rest → step s = .next { s with pending := rest, response := .refused })

/-- 20_memory.md R37: an admitted write stores its bytes, little-endian, and changes nothing else; one that is not admitted
changes nothing. A write to `CMD` is `StepRunsDecodedCommand` and `IllegalWordRaisesIll`. -/
def Obligations.AdmittedWriteStoresBytes : Prop :=
  ∀ (s : State) (a n : Nat) (v : BitVec 64) (rest : List HostMove), s.pending = .write a n v :: rest →
    (writeAdmitted s a n = true → a ≠ 0x300 → ∃ t,
      step s = .next t ∧
      t = { s with lanes := t.lanes, buf := t.buf, pending := rest, response := .accepted } ∧
      (∀ k, k < n → peekByte t (a + k) = some (v.extractLsb' (8 * k) 8)) ∧
      (∀ b, b < a ∨ a + n ≤ b → peekByte t b = peekByte s b)) ∧
    (writeAdmitted s a n = false → step s = .next { s with pending := rest, response := .refused })

/-- 20_memory.md R40 with 10_state.md R15: a lane written whole is seen by byte reads, and half a lane by a 4-byte read. -/
def Obligations.MixedWidthsSeeTheSameBytes : Prop :=
  (∀ (s : State) (x y : Nat) (v : BitVec 64) (rest : List HostMove), x < 5 → y < 5 → s.phase = .uninit →
    s.pending = .write (8 * (x + 5 * y)) 8 v :: rest →
    ∃ A, (∀ x' y', x' < 5 → y' < 5 → lane A x' y' = if x' = x ∧ y' = y then v else lane s.lanes x' y') ∧
      (∀ k, k < 8 → stateByte A (8 * (x + 5 * y) + k) = v.extractLsb' (8 * k) 8) ∧
      step s = .next { s with lanes := A, pending := rest, response := .accepted }) ∧
  (∀ (s : State) (x y : Nat) (rest : List HostMove), x < 5 → y < 5 →
    s.pending = .read (8 * (x + 5 * y) + 4) 4 :: rest →
    step s = .next { s with pending := rest, response := .value (((lane s.lanes x y).extractLsb' 32 32).setWidth 64) })

/-- 20_memory.md R43: reading an address twice in a row gives the same answer twice, and changes nothing of the core. -/
def Obligations.ReadsAreIdempotent : Prop :=
  ∀ (s t u : State) (a n : Nat) (rest : List HostMove), s.pending = .read a n :: .read a n :: rest →
    step s = .next t → step t = .next u →
    u.response = t.response ∧ u = { s with pending := rest, response := t.response }

/-! ### Reset -/

/-- 70_reset_and_hazards.md R126, 10_state.md R32: what a reset leaves in every control register. Of `S`, `BUF` and `OUT` it
says nothing: they are unspecified. The move and the list behind it are the model's own (log 5). -/
def Obligations.ResetMoveResetsControlState : Prop :=
  ∀ (s : State) (rest : List HostMove), s.pending = .reset :: rest → ∃ t, step s = .next t ∧
    t.phase = .uninit ∧ t.pv = false ∧ t.prm = ⟨0, 0, 0, 0⟩ ∧ t.ocnt = 0 ∧ t.err = .eNone ∧ t.ef = false ∧
    t.pending = rest

/-- 10_state.md R32: the control registers of the reset state, and that it is a sound state. -/
def Obligations.ResetStateIsSound : Prop :=
  State.reset.phase = .uninit ∧ State.reset.pv = false ∧ State.reset.prm = ⟨0, 0, 0, 0⟩ ∧ State.reset.ocnt = 0 ∧
    State.reset.err = .eNone ∧ State.reset.ef = false ∧ State.reset.Inv

/-- Every step keeps the relations between the registers that 10_state.md R19, R20, R22, 45_sponge_fsm.md R101, R107 and
60_exceptions.md R116, R123 state (`State.Inv`). -/
def Obligations.StepKeepsInvariant : Prop :=
  ∀ s t : State, s.Inv → step s = .next t → t.Inv

/-! ### Errors -/

/-- 60_exceptions.md R116, all four codes: a command word that raises an error changes `ERR` and `EF` and nothing else. -/
def Obligations.FailingCommandChangesOnlyErrAndEf : Prop :=
  ∀ (s t : State) (v : BitVec 64) (rest : List HostMove), s.pending = .write 0x300 4 v :: rest → step s = .next t →
    t.err ≠ .eNone → t = { s with pending := rest, response := .accepted, err := t.err, ef := true }

/-- 10_state.md R25: `EF` is set by every command that raises an error, by nothing else, cleared by reset alone, and no
command's result depends on it. -/
def Obligations.EfIsStickyAndUnread : Prop :=
  (∀ (s t : State) (v : BitVec 64) (rest : List HostMove), s.pending = .write 0x300 4 v :: rest → step s = .next t →
    (t.ef = true ↔ s.ef = true ∨ t.err ≠ .eNone)) ∧
  (∀ s t : State, (∀ rest, s.pending ≠ .reset :: rest) → (∀ v rest, s.pending ≠ .write 0x300 4 v :: rest) →
    step s = .next t → t.ef = s.ef) ∧
  (∀ (s t : State) (rest : List HostMove), s.pending = .reset :: rest → step s = .next t → t.ef = false) ∧
  (∀ (i : Instr) (s t : State) (b : Bool), exec i s = .next t →
    exec i { s with ef := b } = .next { t with ef := b || t.err != .eNone })

/-- 60_exceptions.md R123, R118: in a sound state a command raises `E_SEQ` exactly when the legality table says so, whatever
its operand. -/
def Obligations.LegalityTableDecidesSeq : Prop :=
  ∀ (i : Instr) (s t : State), s.Inv → exec i s = .next t → (t.err = .eSeq ↔ legalIn i s.phase s.pv = false)

/-- 60_exceptions.md R113 under the order of R118: `E_CFG` comes from an unsupported digest length of SETLEN or SP_START in
direct mode, and from nothing else. -/
def Obligations.CfgErrorExactly : Prop :=
  ∀ (i : Instr) (s t : State), exec i s = .next t →
    (t.err = .eCfg ↔ ∃ L, (i = .setlen L ∨ i = .spStart L) ∧ s.phase = .uninit ∧
      L ≠ 224 ∧ L ≠ 256 ∧ L ≠ 384 ∧ L ≠ 512)

/-- 60_exceptions.md R114 under the order of R118: `E_PRE` comes from PAD with `n ≥ RB` or from IOTA or ROUND with
`r > 23`, and from nothing else. -/
def Obligations.PreErrorExactly : Prop :=
  ∀ (i : Instr) (s t : State), exec i s = .next t →
    (t.err = .ePre ↔ (∃ n, i = .pad n ∧ s.pv = true ∧ s.prm.rate.toNat / 8 ≤ n) ∨
      (∃ r, (i = .iota r ∨ i = .round r) ∧ s.phase = .uninit ∧ 23 < r))

/-- 60_exceptions.md R120: a command that failed and is issued again fails again with the same code. -/
def Obligations.FailingCommandFailsAgain : Prop :=
  ∀ (i : Instr) (s t : State), exec i s = .next t → t.err ≠ .eNone → exec i t = .next t

/-! ### Which command writes what -/

/-- 45_sponge_fsm.md R100: `PHASE` after every command, the pairs of phase and sponge command that raise `E_SEQ`, and
reset. -/
def Obligations.PhaseTransitionTable : Prop :=
  (∀ (i : Instr) (s t : State), exec i s = .next t →
    t.phase = match i with
      | .spStart L => if s.phase = .uninit ∧ (L = 224 ∨ L = 256 ∨ L = 384 ∨ L = 512) then .absorbing else s.phase
      | .spAbsorb last => if s.phase = .absorbing ∧ last = true then .squeezing else s.phase
      | .spSqueeze => if s.phase = .squeezing then .done else s.phase
      | .spClear => .uninit
      | _ => s.phase) ∧
  (∀ (i : Instr) (s t : State), exec i s = .next t →
    ((∃ L, i = .spStart L) ∧ s.phase ≠ .uninit) ∨ ((∃ last, i = .spAbsorb last) ∧ s.phase ≠ .absorbing) ∨
      (i = .spSqueeze ∧ s.phase ≠ .squeezing) →
    t.err = .eSeq) ∧
  (∀ (s t : State) (rest : List HostMove), s.pending = .reset :: rest → step s = .next t → t.phase = .uninit)

/-- 10_state.md R18, R19, R22, R26, R27 and 20_memory.md R50: which commands can change which state; in a sound state. The
last clause is about the model's own fields. -/
def Obligations.CommandWriteFrame : Prop :=
  ∀ (i : Instr) (s t : State), s.Inv → exec i s = .next t →
    (t.lanes ≠ s.lanes → i ∈ ([.zero, .absorb, .theta, .rho, .pi, .chi, .permute] : List Instr) ∨
      (∃ r, i = .iota r ∨ i = .round r) ∨ (∃ L, i = .spStart L) ∨ ∃ last, i = .spAbsorb last) ∧
    (t.buf ≠ s.buf → ∃ n, i = .pad n) ∧
    (t.out ≠ s.out → i = .squeeze ∨ i = .spSqueeze) ∧
    (t.prm ≠ s.prm ∨ t.pv ≠ s.pv → ∃ L, i = .setlen L ∨ i = .spStart L) ∧
    (t.ocnt ≠ s.ocnt → i = .squeeze ∨ i = .spSqueeze ∨ ∃ L, i = .spStart L) ∧
    (t.pending = s.pending ∧ t.response = s.response ∧ t.resets = s.resets)

/-- 10_state.md R20: `PV` is 0 from reset until the first SETLEN or SP_START that completes, 1 afterwards; PAD, ABSORB and
SQUEEZE raise `E_SEQ` while it is 0. -/
def Obligations.PvRule : Prop :=
  State.reset.pv = false ∧
  (∀ (i : Instr) (s t : State), exec i s = .next t →
    ((∃ L, i = .setlen L ∨ i = .spStart L) → t.err = .eNone → t.pv = true) ∧
    (s.pv = true → t.pv = true) ∧
    (s.pv = false → t.pv = true → (∃ L, i = .setlen L ∨ i = .spStart L) ∧ t.err = .eNone) ∧
    (s.pv = false → ((∃ n, i = .pad n) ∨ i = .absorb ∨ i = .squeeze) → t.err = .eSeq))

/-- 10_state.md R22: `OCNT` is 0 after reset and after SP_START, the digest length in bytes after SQUEEZE and SP_SQUEEZE, and
no other command changes it. -/
def Obligations.OcntRule : Prop :=
  State.reset.ocnt = 0 ∧
  (∀ (i : Instr) (s t : State), exec i s = .next t →
    ((∃ L, i = .spStart L) → t.err = .eNone → t.ocnt = 0) ∧
    (i = .squeeze ∨ i = .spSqueeze → t.err = .eNone → t.ocnt = BitVec.ofNat 32 (s.prm.L.toNat / 8)) ∧
    (i ≠ .squeeze → i ≠ .spSqueeze → (∀ L, i ≠ .spStart L) → t.ocnt = s.ocnt))

/-! ### The parameters -/

/-- 40_params.md R65 with the numbers of R64: SETLEN in direct mode. -/
def Obligations.SetlenLoadsParameters : Prop :=
  ∀ (s : State) (L rate cap : Nat),
    (L, rate, cap) ∈ [(224, 1152, 448), (256, 1088, 512), (384, 832, 768), (512, 576, 1024)] → s.phase = .uninit →
    exec (.setlen L) s = .next { s with
      prm := ⟨BitVec.ofNat 32 L, BitVec.ofNat 32 rate, BitVec.ofNat 32 cap, 200⟩, pv := true, err := .eNone }

/-- 40_params.md R64: the identities between the parameters of any sound state that has some. -/
def Obligations.ParameterIdentities : Prop :=
  ∀ s : State, s.Inv → s.pv = true →
    s.prm.rate.toNat + s.prm.cap.toNat = 1600 ∧ s.prm.cap.toNat = 2 * s.prm.L.toNat ∧ s.prm.ssb = 200 ∧
    s.prm.rateBytes * 8 = s.prm.rate.toNat ∧ s.prm.digestBytes * 8 = s.prm.L.toNat ∧
    s.prm.digestBytes < s.prm.rateBytes ∧ 8 ∣ s.prm.rateBytes ∧ s.prm.rateBytes ≤ 144 ∧ s.prm.digestBytes ≤ 64

/-! ### Padding -/

/-- 41_padding.md R72 (and the block of R69): `BUF` after a PAD that completes, and that nothing else changes. -/
def Obligations.PadCompletesBlock : Prop :=
  ∀ (s : State) (n : Nat), s.Inv → s.pv = true → n < s.prm.rateBytes →
    ∃ B, bufByte B n ||| bufByte B (s.prm.rateBytes - 1) = 0x86 ∧
      (n = s.prm.rateBytes - 1 → bufByte B n = 0x86) ∧
      (n < s.prm.rateBytes - 1 → bufByte B n = 0x06 ∧ bufByte B (s.prm.rateBytes - 1) = 0x80 ∧
        ∀ i, n < i → i < s.prm.rateBytes - 1 → bufByte B i = 0) ∧
      (∀ i, i < n ∨ (s.prm.rateBytes ≤ i ∧ i < 144) → bufByte B i = bufByte s.buf i) ∧
      exec (.pad n) s = .next { s with buf := B, err := .eNone }

/-- 41_padding.md R71: a block at or above the rate raises `E_PRE` and leaves `BUF` (and all else) as it was. -/
def Obligations.PadRejectsFullBlock : Prop :=
  ∀ (s : State) (n : Nat), s.pv = true → s.prm.rateBytes ≤ n →
    exec (.pad n) s = .next { s with err := .ePre, ef := true }

/-! ### State creation and the step mappings -/

/-- 42_step_mappings.md R74: ZERO in direct mode. -/
def Obligations.ZeroClearsState : Prop :=
  ∀ s : State, s.phase = .uninit →
    ∃ A, (∀ x y, x < 5 → y < 5 → lane A x y = 0) ∧ exec .zero s = .next { s with lanes := A, err := .eNone }

/-- 42_step_mappings.md R75, R76, bit by bit: bit `i` of a lane is XORed with the parity of bit `i` of column `x-1` and the
parity of bit `i-1` of column `x+1`. -/
def Obligations.ThetaMixesColumnParities : Prop :=
  ∀ s : State, s.phase = .uninit →
    ∃ A, (∀ x y i, x < 5 → y < 5 → i < 64 →
        (lane A x y).getLsbD i =
          ((lane s.lanes x y).getLsbD i ^^
            ((lane s.lanes ((x + 4) % 5) 0).getLsbD i ^^ (lane s.lanes ((x + 4) % 5) 1).getLsbD i ^^
              (lane s.lanes ((x + 4) % 5) 2).getLsbD i ^^ (lane s.lanes ((x + 4) % 5) 3).getLsbD i ^^
              (lane s.lanes ((x + 4) % 5) 4).getLsbD i) ^^
            ((lane s.lanes ((x + 1) % 5) 0).getLsbD ((i + 63) % 64) ^^ (lane s.lanes ((x + 1) % 5) 1).getLsbD ((i + 63) % 64) ^^
              (lane s.lanes ((x + 1) % 5) 2).getLsbD ((i + 63) % 64) ^^ (lane s.lanes ((x + 1) % 5) 3).getLsbD ((i + 63) % 64) ^^
              (lane s.lanes ((x + 1) % 5) 4).getLsbD ((i + 63) % 64)))) ∧
      exec .theta s = .next { s with lanes := A, err := .eNone }

/-- 42_step_mappings.md R76: Theta is linear over XOR. -/
def Obligations.ThetaIsLinear : Prop :=
  ∀ A B C : Lanes, (∀ x y, x < 5 → y < 5 → lane C x y = lane A x y ^^^ lane B x y) →
    ∀ x y, x < 5 → y < 5 → lane (thetaStep C) x y = lane (thetaStep A) x y ^^^ lane (thetaStep B) x y

/-- 42_step_mappings.md R77, R78, bit by bit (00_scope.md R9): bit `i` of lane `(x, y)` goes to bit `i + ROT[x][y]` mod 64 of
the same lane. -/
def Obligations.RhoRotatesEachLane : Prop :=
  ∀ s : State, s.phase = .uninit →
    ∃ A, (∀ x y i, x < 5 → y < 5 → i < 64 →
        (lane A x y).getLsbD ((i + rotationOffset x y) % 64) = (lane s.lanes x y).getLsbD i) ∧
      exec .rho s = .next { s with lanes := A, err := .eNone }

/-- 42_step_mappings.md R79, R80: the lane at `(x, y)` moves to `(y, (2x + 3y) mod 5)`. -/
def Obligations.PiMovesEachLane : Prop :=
  ∀ s : State, s.phase = .uninit →
    ∃ A, (∀ x y, x < 5 → y < 5 → lane A y ((2 * x + 3 * y) % 5) = lane s.lanes x y) ∧
      exec .pi s = .next { s with lanes := A, err := .eNone }

/-- 42_step_mappings.md R81, R82, bit by bit. -/
def Obligations.ChiCombinesRowNeighbours : Prop :=
  ∀ s : State, s.phase = .uninit →
    ∃ A, (∀ x y i, x < 5 → y < 5 → i < 64 →
        (lane A x y).getLsbD i =
          ((lane s.lanes x y).getLsbD i ^^
            (!(lane s.lanes ((x + 1) % 5) y).getLsbD i && (lane s.lanes ((x + 2) % 5) y).getLsbD i))) ∧
      exec .chi s = .next { s with lanes := A, err := .eNone }

/-- 42_step_mappings.md R83, R84: lane (0,0) is XORed with `RC[r]`, the other 24 lanes are unchanged. -/
def Obligations.IotaXorsRoundConstant : Prop :=
  ∀ (s : State) (r : Nat), s.phase = .uninit → r ≤ 23 →
    ∃ A, lane A 0 0 = lane s.lanes 0 0 ^^^ roundConstant r ∧
      (∀ x y, x < 5 → y < 5 → ¬(x = 0 ∧ y = 0) → lane A x y = lane s.lanes x y) ∧
      exec (.iota r) s = .next { s with lanes := A, err := .eNone }

/-! ### Round and permutation -/

/-- 43_round_permutation.md R85, R87: ROUND r is exactly THETA; RHO; PI; CHI; IOTA r. -/
def Obligations.RoundIsFiveSteps : Prop :=
  ∀ (s : State) (r : Nat), s.phase = .uninit → r ≤ 23 →
    ∃ A, runCommands [.theta, .rho, .pi, .chi, .iota r] s = .next { s with lanes := A, err := .eNone } ∧
      exec (.round r) s = .next { s with lanes := A, err := .eNone }

/-- 43_round_permutation.md R88, R89: PERMUTE is ROUND 0; ROUND 1; …; ROUND 23. -/
def Obligations.PermuteIs24Rounds : Prop :=
  ∀ s : State, s.phase = .uninit →
    ∃ A, runCommands [.round 0, .round 1, .round 2, .round 3, .round 4, .round 5, .round 6, .round 7, .round 8, .round 9,
        .round 10, .round 11, .round 12, .round 13, .round 14, .round 15, .round 16, .round 17, .round 18, .round 19,
        .round 20, .round 21, .round 22, .round 23] s = .next { s with lanes := A, err := .eNone } ∧
      exec .permute s = .next { s with lanes := A, err := .eNone }

/-! ### The sponge data path -/

/-- 10_state.md R15: the bytes of a lane, and the lane of its bytes. -/
def Obligations.StateBytesAreLaneBytes : Prop :=
  ∀ (A : Lanes) (x y : Nat), x < 5 → y < 5 →
    (∀ k i, k < 8 → i < 8 → (stateByte A (8 * (x + 5 * y) + k)).getLsbD i = (lane A x y).getLsbD (8 * k + i)) ∧
    lane A x y = stateByte A (8 * (x + 5 * y) + 7) ++ stateByte A (8 * (x + 5 * y) + 6) ++
      stateByte A (8 * (x + 5 * y) + 5) ++ stateByte A (8 * (x + 5 * y) + 4) ++ stateByte A (8 * (x + 5 * y) + 3) ++
      stateByte A (8 * (x + 5 * y) + 2) ++ stateByte A (8 * (x + 5 * y) + 1) ++ stateByte A (8 * (x + 5 * y))

/-- 44_absorb_squeeze.md R92, R93: ABSORB XORs `BUF[0 .. RB-1]` into the rate region and does nothing more. -/
def Obligations.AbsorbXorsRateRegion : Prop :=
  ∀ s : State, s.phase = .uninit → s.pv = true →
    ∃ A, (∀ i, i < 200 → i < s.prm.rateBytes → stateByte A i = stateByte s.lanes i ^^^ bufByte s.buf i) ∧
      (∀ i, i < 200 → s.prm.rateBytes ≤ i → stateByte A i = stateByte s.lanes i) ∧
      exec .absorb s = .next { s with lanes := A, err := .eNone }

/-- 44_absorb_squeeze.md R92, lane by lane: the block is taken in little-endian lanes, and the boundary cuts none. -/
def Obligations.AbsorbIsLaneWise : Prop :=
  ∀ s : State, s.Inv → s.phase = .uninit → s.pv = true →
    ∃ A, (∀ j, j < s.prm.rateBytes / 8 →
        laneAt A j = laneAt s.lanes j ^^^ (bufByte s.buf (8 * j + 7) ++ bufByte s.buf (8 * j + 6) ++
          bufByte s.buf (8 * j + 5) ++ bufByte s.buf (8 * j + 4) ++ bufByte s.buf (8 * j + 3) ++
          bufByte s.buf (8 * j + 2) ++ bufByte s.buf (8 * j + 1) ++ bufByte s.buf (8 * j))) ∧
      (∀ j, s.prm.rateBytes / 8 ≤ j → j < 25 → laneAt A j = laneAt s.lanes j) ∧
      exec .absorb s = .next { s with lanes := A, err := .eNone }

/-- 44_absorb_squeeze.md R93: ABSORB twice restores `S`. -/
def Obligations.AbsorbTwiceRestores : Prop :=
  ∀ s : State, s.phase = .uninit → s.pv = true →
    runCommands [.absorb, .absorb] s = .next { s with err := .eNone }

/-- 44_absorb_squeeze.md R94: ABSORB writes no byte at or above `RB`, and the digest of SQUEEZE depends on no byte at or
above `RB`. -/
def Obligations.CapacityRegionUntouched : Prop :=
  (∀ (s t : State) (i : Nat), exec .absorb s = .next t → s.prm.rateBytes ≤ i →
    stateByte t.lanes i = stateByte s.lanes i) ∧
  (∀ (s s' t t' : State), s.Inv → s' = { s with lanes := s'.lanes } →
    (∀ i, i < s.prm.rateBytes → stateByte s'.lanes i = stateByte s.lanes i) →
    exec .squeeze s = .next t → exec .squeeze s' = .next t' → t'.out = t.out)

/-- 44_absorb_squeeze.md R96, R97: SQUEEZE copies the first `DB` bytes of `S` to `OUT` and does not permute. -/
def Obligations.SqueezeCopiesDigest : Prop :=
  ∀ s : State, s.Inv → s.phase = .uninit → s.pv = true →
    ∃ O, (∀ i, i < s.prm.digestBytes → outByte O i = stateByte s.lanes i) ∧
      (∀ i, s.prm.digestBytes ≤ i → i < 64 → outByte O i = outByte s.out i) ∧
      exec .squeeze s = .next { s with out := O, ocnt := BitVec.ofNat 32 s.prm.digestBytes, err := .eNone }

/-- 44_absorb_squeeze.md R95: the squeeze loop for any digest length and any rate of at least one byte: chunks from offset 0,
the permutation between chunks and never after the last, and the exact length. -/
def Obligations.SqueezeOutLoop : Prop :=
  ∀ (A : Lanes) (DB RB : Nat), 0 < RB →
    (DB ≤ RB → squeezeOut A DB RB = (A, (List.range DB).map (stateByte A))) ∧
    (RB < DB → squeezeOut A DB RB =
      ((squeezeOut (keccakF A) (DB - RB) RB).1,
        (List.range RB).map (stateByte A) ++ (squeezeOut (keccakF A) (DB - RB) RB).2)) ∧
    (squeezeOut A DB RB).2.length = DB

/-! ### The sponge state machine -/

/-- 45_sponge_fsm.md R101 with the numbers of 40_params.md R64: SP_START in direct mode. -/
def Obligations.SpStartConstructsSponge : Prop :=
  ∀ (s : State) (L rate cap : Nat),
    (L, rate, cap) ∈ [(224, 1152, 448), (256, 1088, 512), (384, 832, 768), (512, 576, 1024)] → s.phase = .uninit →
    ∃ A, (∀ x y, x < 5 → y < 5 → lane A x y = 0) ∧
      exec (.spStart L) s = .next { s with
        prm := ⟨BitVec.ofNat 32 L, BitVec.ofNat 32 rate, BitVec.ofNat 32 cap, 200⟩, pv := true, lanes := A,
        ocnt := 0, phase := .absorbing, err := .eNone }

/-- 45_sponge_fsm.md R105: SP_ABSORB is the XOR of ABSORB followed by PERMUTE on the State, and leaves ABSORBING exactly on
the last block. -/
def Obligations.SpAbsorbIsAbsorbThenPermute : Prop :=
  ∀ (s : State) (last : Bool), s.Inv → s.phase = .absorbing →
    ∃ A, runCommands [.absorb, .permute] { s with phase := .uninit } =
        .next { s with phase := .uninit, lanes := A, err := .eNone } ∧
      exec (.spAbsorb last) s =
        .next { s with lanes := A, phase := if last then .squeezing else .absorbing, err := .eNone }

/-- 45_sponge_fsm.md R107: SP_SQUEEZE produces the whole digest and finishes; `S` is unchanged. -/
def Obligations.SpSqueezeProducesDigest : Prop :=
  ∀ s : State, s.Inv → s.phase = .squeezing →
    ∃ O, (∀ i, i < s.prm.digestBytes → outByte O i = stateByte s.lanes i) ∧
      (∀ i, s.prm.digestBytes ≤ i → i < 64 → outByte O i = outByte s.out i) ∧
      exec .spSqueeze s =
        .next { s with out := O, ocnt := BitVec.ofNat 32 s.prm.digestBytes, phase := .done, err := .eNone }

/-- 45_sponge_fsm.md R109: SP_CLEAR, in any state, changes `PHASE` and `ERR` alone. -/
def Obligations.SpClearReentersUninit : Prop :=
  ∀ s : State, exec .spClear s = .next { s with phase := .uninit, err := .eNone }

/-- 45_sponge_fsm.md R108: in `DONE` every command but PAD and SP_CLEAR raises `E_SEQ`; and whatever the host does short of
SP_CLEAR and reset, the phase, the State, the digest and its count stay. -/
def Obligations.DoneIsTerminal : Prop :=
  (∀ (i : Instr) (s : State), s.phase = .done → i ≠ .spClear → (∀ n, i ≠ .pad n) →
    exec i s = .next { s with err := .eSeq, ef := true }) ∧
  (∀ s t : State, s.phase = .done → (∀ rest, s.pending ≠ .reset :: rest) →
    (∀ v rest, s.pending = .write 0x300 4 v :: rest → v.setWidth 32 ≠ (0x00000023 : Word)) → step s = .next t →
    t.phase = .done ∧ t.lanes = s.lanes ∧ t.out = s.out ∧ t.ocnt = s.ocnt ∧ t.prm = s.prm ∧ t.pv = s.pv)

/-- 20_memory.md R42, 60_exceptions.md R123: while a sponge instance lives, `S` changes only by SP_ABSORB (or reset). -/
def Obligations.SpongeOwnsState : Prop :=
  ∀ s t : State, s.Inv → s.phase ≠ .uninit → step s = .next t → t.lanes ≠ s.lanes →
    (∃ rest, s.pending = .reset :: rest) ∨
    (s.phase = .absorbing ∧ ∃ v rest last, s.pending = .write 0x300 4 v :: rest ∧
      decode (v.setWidth 32) = .ok (.spAbsorb last))

/-- 70_reset_and_hazards.md R131: a command's outcome in the control registers depends on the command, `PHASE`, `PV` and
`PRM` (and `OCNT`'s old value for `OCNT`), never on `S`, `BUF` or `OUT`. -/
def Obligations.ControlFlowIgnoresData : Prop :=
  ∀ (i : Instr) (s s' t t' : State), s'.phase = s.phase → s'.pv = s.pv → s'.prm = s.prm →
    exec i s = .next t → exec i s' = .next t' →
    t'.err = t.err ∧ t'.phase = t.phase ∧ t'.pv = t.pv ∧ t'.prm = t.prm ∧ (s'.ocnt = s.ocnt → t'.ocnt = t.ocnt)

/-! ### What the sponge computes -/

/-- 45_sponge_fsm.md R110: the host's command sequence for a message `M`, from any state at all, ends in `DONE` with the
sponge's digest of `M` in `OUT`. -/
def Obligations.SpongeScriptComputesDigest : Prop :=
  ∀ (L : Nat) (M : List Byte) (s : State) (rest : List HostMove), L ∈ [224, 256, 384, 512] →
    s.pending = spongeScript L M ++ rest →
    ∃ t, Host.Core.run Sys2Proof.core (spongeScript L M).length s = .next t ∧
      t.phase = .done ∧ t.err = .eNone ∧ t.ef = s.ef ∧ t.ocnt = BitVec.ofNat 32 (L / 8) ∧
      (∀ i, i < L / 8 → outByte t.out i = (spongeDigest L M).getD i 0) ∧
      (∀ i, L / 8 ≤ i → i < 64 → outByte t.out i = outByte s.out i) ∧
      t.pending = rest

/-- 45_sponge_fsm.md R110, last sentence: the direct-mode sequence reaches the same digest. -/
def Obligations.DirectScriptComputesDigest : Prop :=
  ∀ (L : Nat) (M : List Byte) (s : State) (rest : List HostMove), L ∈ [224, 256, 384, 512] → s.phase = .uninit →
    s.pending = directScript L M ++ rest →
    ∃ t, Host.Core.run Sys2Proof.core (directScript L M).length s = .next t ∧
      t.phase = .uninit ∧ t.err = .eNone ∧ t.ef = s.ef ∧ t.ocnt = BitVec.ofNat 32 (L / 8) ∧
      (∀ i, i < L / 8 → outByte t.out i = (spongeDigest L M).getD i 0) ∧
      (∀ i, L / 8 ≤ i → i < 64 → outByte t.out i = outByte s.out i) ∧
      t.pending = rest
end

