-- ==== Sys2Proof/Laws/State.lean ====
section
/-! SUPPORT. One lemma per field per update of the state, each true by rfl, so that no proof unfolds a record update. -/

namespace Sys2Proof.Machine

/-! ### State.loadParams -/

@[simp] theorem State.loadParams_lanes (p : Prm) (s : State) : (s.loadParams p).lanes = s.lanes := rfl
@[simp] theorem State.loadParams_buf (p : Prm) (s : State) : (s.loadParams p).buf = s.buf := rfl
@[simp] theorem State.loadParams_out (p : Prm) (s : State) : (s.loadParams p).out = s.out := rfl
@[simp] theorem State.loadParams_prm (p : Prm) (s : State) : (s.loadParams p).prm = p := rfl
@[simp] theorem State.loadParams_pv (p : Prm) (s : State) : (s.loadParams p).pv = true := rfl
@[simp] theorem State.loadParams_phase (p : Prm) (s : State) : (s.loadParams p).phase = s.phase := rfl
@[simp] theorem State.loadParams_ocnt (p : Prm) (s : State) : (s.loadParams p).ocnt = s.ocnt := rfl
@[simp] theorem State.loadParams_err (p : Prm) (s : State) : (s.loadParams p).err = s.err := rfl
@[simp] theorem State.loadParams_ef (p : Prm) (s : State) : (s.loadParams p).ef = s.ef := rfl
@[simp] theorem State.loadParams_pending (p : Prm) (s : State) : (s.loadParams p).pending = s.pending := rfl
@[simp] theorem State.loadParams_response (p : Prm) (s : State) : (s.loadParams p).response = s.response := rfl
@[simp] theorem State.loadParams_resets (p : Prm) (s : State) : (s.loadParams p).resets = s.resets := rfl

/-! ### State.answer -/

@[simp] theorem State.answer_lanes (s : State) (rest : List HostMove) (r : Response) : (s.answer rest r).lanes = s.lanes := rfl
@[simp] theorem State.answer_buf (s : State) (rest : List HostMove) (r : Response) : (s.answer rest r).buf = s.buf := rfl
@[simp] theorem State.answer_out (s : State) (rest : List HostMove) (r : Response) : (s.answer rest r).out = s.out := rfl
@[simp] theorem State.answer_prm (s : State) (rest : List HostMove) (r : Response) : (s.answer rest r).prm = s.prm := rfl
@[simp] theorem State.answer_pv (s : State) (rest : List HostMove) (r : Response) : (s.answer rest r).pv = s.pv := rfl
@[simp] theorem State.answer_phase (s : State) (rest : List HostMove) (r : Response) : (s.answer rest r).phase = s.phase := rfl
@[simp] theorem State.answer_ocnt (s : State) (rest : List HostMove) (r : Response) : (s.answer rest r).ocnt = s.ocnt := rfl
@[simp] theorem State.answer_err (s : State) (rest : List HostMove) (r : Response) : (s.answer rest r).err = s.err := rfl
@[simp] theorem State.answer_ef (s : State) (rest : List HostMove) (r : Response) : (s.answer rest r).ef = s.ef := rfl
@[simp] theorem State.answer_pending (s : State) (rest : List HostMove) (r : Response) : (s.answer rest r).pending = rest := rfl
@[simp] theorem State.answer_response (s : State) (rest : List HostMove) (r : Response) : (s.answer rest r).response = r := rfl
@[simp] theorem State.answer_resets (s : State) (rest : List HostMove) (r : Response) : (s.answer rest r).resets = s.resets := rfl

/-! ### mapLanes -/

@[simp] theorem mapLanes_lanes (f : Lanes → Lanes) (s : State) : (mapLanes f s).lanes = f s.lanes := rfl
@[simp] theorem mapLanes_buf (f : Lanes → Lanes) (s : State) : (mapLanes f s).buf = s.buf := rfl
@[simp] theorem mapLanes_out (f : Lanes → Lanes) (s : State) : (mapLanes f s).out = s.out := rfl
@[simp] theorem mapLanes_prm (f : Lanes → Lanes) (s : State) : (mapLanes f s).prm = s.prm := rfl
@[simp] theorem mapLanes_pv (f : Lanes → Lanes) (s : State) : (mapLanes f s).pv = s.pv := rfl
@[simp] theorem mapLanes_phase (f : Lanes → Lanes) (s : State) : (mapLanes f s).phase = s.phase := rfl
@[simp] theorem mapLanes_ocnt (f : Lanes → Lanes) (s : State) : (mapLanes f s).ocnt = s.ocnt := rfl
@[simp] theorem mapLanes_err (f : Lanes → Lanes) (s : State) : (mapLanes f s).err = s.err := rfl
@[simp] theorem mapLanes_ef (f : Lanes → Lanes) (s : State) : (mapLanes f s).ef = s.ef := rfl
@[simp] theorem mapLanes_pending (f : Lanes → Lanes) (s : State) : (mapLanes f s).pending = s.pending := rfl
@[simp] theorem mapLanes_response (f : Lanes → Lanes) (s : State) : (mapLanes f s).response = s.response := rfl
@[simp] theorem mapLanes_resets (f : Lanes → Lanes) (s : State) : (mapLanes f s).resets = s.resets := rfl

/-! ### padBuf -/

@[simp] theorem padBuf_lanes (RB n : Nat) (s : State) : (padBuf RB n s).lanes = s.lanes := rfl
@[simp] theorem padBuf_buf (RB n : Nat) (s : State) : (padBuf RB n s).buf = tabulate 144 (padByte sha3Pad RB n (bufByte s.buf)) := rfl
@[simp] theorem padBuf_out (RB n : Nat) (s : State) : (padBuf RB n s).out = s.out := rfl
@[simp] theorem padBuf_prm (RB n : Nat) (s : State) : (padBuf RB n s).prm = s.prm := rfl
@[simp] theorem padBuf_pv (RB n : Nat) (s : State) : (padBuf RB n s).pv = s.pv := rfl
@[simp] theorem padBuf_phase (RB n : Nat) (s : State) : (padBuf RB n s).phase = s.phase := rfl
@[simp] theorem padBuf_ocnt (RB n : Nat) (s : State) : (padBuf RB n s).ocnt = s.ocnt := rfl
@[simp] theorem padBuf_err (RB n : Nat) (s : State) : (padBuf RB n s).err = s.err := rfl
@[simp] theorem padBuf_ef (RB n : Nat) (s : State) : (padBuf RB n s).ef = s.ef := rfl
@[simp] theorem padBuf_pending (RB n : Nat) (s : State) : (padBuf RB n s).pending = s.pending := rfl
@[simp] theorem padBuf_response (RB n : Nat) (s : State) : (padBuf RB n s).response = s.response := rfl
@[simp] theorem padBuf_resets (RB n : Nat) (s : State) : (padBuf RB n s).resets = s.resets := rfl

/-! ### absorbBuf -/

@[simp] theorem absorbBuf_lanes (s : State) : (absorbBuf s).lanes = xorBlock s.lanes (bufByte s.buf) s.prm.rateBytes := rfl
@[simp] theorem absorbBuf_buf (s : State) : (absorbBuf s).buf = s.buf := rfl
@[simp] theorem absorbBuf_out (s : State) : (absorbBuf s).out = s.out := rfl
@[simp] theorem absorbBuf_prm (s : State) : (absorbBuf s).prm = s.prm := rfl
@[simp] theorem absorbBuf_pv (s : State) : (absorbBuf s).pv = s.pv := rfl
@[simp] theorem absorbBuf_phase (s : State) : (absorbBuf s).phase = s.phase := rfl
@[simp] theorem absorbBuf_ocnt (s : State) : (absorbBuf s).ocnt = s.ocnt := rfl
@[simp] theorem absorbBuf_err (s : State) : (absorbBuf s).err = s.err := rfl
@[simp] theorem absorbBuf_ef (s : State) : (absorbBuf s).ef = s.ef := rfl
@[simp] theorem absorbBuf_pending (s : State) : (absorbBuf s).pending = s.pending := rfl
@[simp] theorem absorbBuf_response (s : State) : (absorbBuf s).response = s.response := rfl
@[simp] theorem absorbBuf_resets (s : State) : (absorbBuf s).resets = s.resets := rfl

/-! ### squeezeToOut -/

@[simp] theorem squeezeToOut_lanes (s : State) : (squeezeToOut s).lanes = (squeezeOut s.lanes s.prm.digestBytes s.prm.rateBytes).1 := rfl
@[simp] theorem squeezeToOut_buf (s : State) : (squeezeToOut s).buf = s.buf := rfl
@[simp] theorem squeezeToOut_out (s : State) : (squeezeToOut s).out = digestInto s.out s.prm.digestBytes (squeezeOut s.lanes s.prm.digestBytes s.prm.rateBytes).2 := rfl
@[simp] theorem squeezeToOut_prm (s : State) : (squeezeToOut s).prm = s.prm := rfl
@[simp] theorem squeezeToOut_pv (s : State) : (squeezeToOut s).pv = s.pv := rfl
@[simp] theorem squeezeToOut_phase (s : State) : (squeezeToOut s).phase = s.phase := rfl
@[simp] theorem squeezeToOut_ocnt (s : State) : (squeezeToOut s).ocnt = BitVec.ofNat 32 s.prm.digestBytes := rfl
@[simp] theorem squeezeToOut_err (s : State) : (squeezeToOut s).err = s.err := rfl
@[simp] theorem squeezeToOut_ef (s : State) : (squeezeToOut s).ef = s.ef := rfl
@[simp] theorem squeezeToOut_pending (s : State) : (squeezeToOut s).pending = s.pending := rfl
@[simp] theorem squeezeToOut_response (s : State) : (squeezeToOut s).response = s.response := rfl
@[simp] theorem squeezeToOut_resets (s : State) : (squeezeToOut s).resets = s.resets := rfl

/-! ### startSponge -/

@[simp] theorem startSponge_lanes (p : Prm) (s : State) : (startSponge p s).lanes = zeroLanes := rfl
@[simp] theorem startSponge_buf (p : Prm) (s : State) : (startSponge p s).buf = s.buf := rfl
@[simp] theorem startSponge_out (p : Prm) (s : State) : (startSponge p s).out = s.out := rfl
@[simp] theorem startSponge_prm (p : Prm) (s : State) : (startSponge p s).prm = p := rfl
@[simp] theorem startSponge_pv (p : Prm) (s : State) : (startSponge p s).pv = true := rfl
@[simp] theorem startSponge_phase (p : Prm) (s : State) : (startSponge p s).phase = .absorbing := rfl
@[simp] theorem startSponge_ocnt (p : Prm) (s : State) : (startSponge p s).ocnt = 0 := rfl
@[simp] theorem startSponge_err (p : Prm) (s : State) : (startSponge p s).err = s.err := rfl
@[simp] theorem startSponge_ef (p : Prm) (s : State) : (startSponge p s).ef = s.ef := rfl
@[simp] theorem startSponge_pending (p : Prm) (s : State) : (startSponge p s).pending = s.pending := rfl
@[simp] theorem startSponge_response (p : Prm) (s : State) : (startSponge p s).response = s.response := rfl
@[simp] theorem startSponge_resets (p : Prm) (s : State) : (startSponge p s).resets = s.resets := rfl

/-! ### absorbAndPermute -/

@[simp] theorem absorbAndPermute_lanes (last : Bool) (s : State) : (absorbAndPermute last s).lanes = keccakF (xorBlock s.lanes (bufByte s.buf) s.prm.rateBytes) := rfl
@[simp] theorem absorbAndPermute_buf (last : Bool) (s : State) : (absorbAndPermute last s).buf = s.buf := rfl
@[simp] theorem absorbAndPermute_out (last : Bool) (s : State) : (absorbAndPermute last s).out = s.out := rfl
@[simp] theorem absorbAndPermute_prm (last : Bool) (s : State) : (absorbAndPermute last s).prm = s.prm := rfl
@[simp] theorem absorbAndPermute_pv (last : Bool) (s : State) : (absorbAndPermute last s).pv = s.pv := rfl
@[simp] theorem absorbAndPermute_phase (last : Bool) (s : State) : (absorbAndPermute last s).phase = if last then .squeezing else s.phase := rfl
@[simp] theorem absorbAndPermute_ocnt (last : Bool) (s : State) : (absorbAndPermute last s).ocnt = s.ocnt := rfl
@[simp] theorem absorbAndPermute_err (last : Bool) (s : State) : (absorbAndPermute last s).err = s.err := rfl
@[simp] theorem absorbAndPermute_ef (last : Bool) (s : State) : (absorbAndPermute last s).ef = s.ef := rfl
@[simp] theorem absorbAndPermute_pending (last : Bool) (s : State) : (absorbAndPermute last s).pending = s.pending := rfl
@[simp] theorem absorbAndPermute_response (last : Bool) (s : State) : (absorbAndPermute last s).response = s.response := rfl
@[simp] theorem absorbAndPermute_resets (last : Bool) (s : State) : (absorbAndPermute last s).resets = s.resets := rfl

/-! ### A write to a data region touches `S` and `BUF` alone -/

@[simp] theorem storeBytes_out (s : State) (a n : Nat) (v : BitVec 64) : (storeBytes s a n v).out = s.out := by
  unfold storeBytes; split <;> rfl
@[simp] theorem storeBytes_prm (s : State) (a n : Nat) (v : BitVec 64) : (storeBytes s a n v).prm = s.prm := by
  unfold storeBytes; split <;> rfl
@[simp] theorem storeBytes_pv (s : State) (a n : Nat) (v : BitVec 64) : (storeBytes s a n v).pv = s.pv := by
  unfold storeBytes; split <;> rfl
@[simp] theorem storeBytes_phase (s : State) (a n : Nat) (v : BitVec 64) : (storeBytes s a n v).phase = s.phase := by
  unfold storeBytes; split <;> rfl
@[simp] theorem storeBytes_ocnt (s : State) (a n : Nat) (v : BitVec 64) : (storeBytes s a n v).ocnt = s.ocnt := by
  unfold storeBytes; split <;> rfl
@[simp] theorem storeBytes_err (s : State) (a n : Nat) (v : BitVec 64) : (storeBytes s a n v).err = s.err := by
  unfold storeBytes; split <;> rfl
@[simp] theorem storeBytes_ef (s : State) (a n : Nat) (v : BitVec 64) : (storeBytes s a n v).ef = s.ef := by
  unfold storeBytes; split <;> rfl
@[simp] theorem storeBytes_pending (s : State) (a n : Nat) (v : BitVec 64) : (storeBytes s a n v).pending = s.pending := by
  unfold storeBytes; split <;> rfl
@[simp] theorem storeBytes_response (s : State) (a n : Nat) (v : BitVec 64) : (storeBytes s a n v).response = s.response := by
  unfold storeBytes; split <;> rfl
@[simp] theorem storeBytes_resets (s : State) (a n : Nat) (v : BitVec 64) : (storeBytes s a n v).resets = s.resets := by
  unfold storeBytes; split <;> rfl

/-! ### The state after a reset -/

@[simp] theorem State.afterReset_prm (epoch : Nat) (moves : List HostMove) : (State.afterReset epoch moves).prm = Prm.zero := rfl
@[simp] theorem State.afterReset_pv (epoch : Nat) (moves : List HostMove) : (State.afterReset epoch moves).pv = false := rfl
@[simp] theorem State.afterReset_phase (epoch : Nat) (moves : List HostMove) : (State.afterReset epoch moves).phase = .uninit := rfl
@[simp] theorem State.afterReset_ocnt (epoch : Nat) (moves : List HostMove) : (State.afterReset epoch moves).ocnt = 0 := rfl
@[simp] theorem State.afterReset_err (epoch : Nat) (moves : List HostMove) : (State.afterReset epoch moves).err = .eNone := rfl
@[simp] theorem State.afterReset_ef (epoch : Nat) (moves : List HostMove) : (State.afterReset epoch moves).ef = false := rfl
@[simp] theorem State.afterReset_pending (epoch : Nat) (moves : List HostMove) : (State.afterReset epoch moves).pending = moves := rfl
@[simp] theorem State.afterReset_response (epoch : Nat) (moves : List HostMove) : (State.afterReset epoch moves).response = .silent := rfl
@[simp] theorem State.afterReset_resets (epoch : Nat) (moves : List HostMove) : (State.afterReset epoch moves).resets = epoch := rfl

end Sys2Proof.Machine
end

