-- ==== Sys2Proof/Laws/Ops.lean ====
section
/-! SUPPORT. What the shared operations do: lanes and their bytes, the two buffers, and the shape of a command. -/

namespace Sys2Proof

@[simp] theorem toList_tabulate {α : Type} (n : Nat) (f : Nat → α) : (tabulate n f).toList = (List.range n).map f := rfl

theorem getElem_tabulate {α : Type} (n : Nat) (f : Nat → α) (i : Nat) (h : i < n) : (tabulate n f)[i] = f i := by
  simp [tabulate]

theorem getD_tabulate {α : Type} (n : Nat) (f : Nat → α) (i : Nat) (d : α) (h : i < n) :
    (tabulate n f).toList.getD i d = f i := by
  simp [List.getD, h]

/-- A buffer is the tabulation of its own entries. -/
theorem eq_tabulate {α : Type} {n : Nat} (V : Vector α n) (d : α) : tabulate n (fun i => V.toList.getD i d) = V := by
  ext i h
  rw [getElem_tabulate _ _ _ h]
  simp [List.getD, h]

theorem tabulate_congr {α : Type} {n : Nat} {f g : Nat → α} (h : ∀ i, i < n → f i = g i) : tabulate n f = tabulate n g := by
  ext i hi
  rw [getElem_tabulate _ _ _ hi, getElem_tabulate _ _ _ hi, h i hi]

namespace Machine

/-! ### Lanes -/

theorem laneAt_tabulate (f : Nat → Lane) (j : Nat) (h : j < 25) : laneAt (tabulate 25 f) j = f j :=
  getD_tabulate 25 f j 0 h

theorem laneAt_of_ge (A : Lanes) (j : Nat) (h : 25 ≤ j) : laneAt A j = 0 := by
  simp [laneAt, List.getD, h]

@[simp] theorem lane_grid (f : Nat → Nat → Lane) (x y : Nat) (hx : x < 5) (hy : y < 5) : lane (grid f) x y = f x y := by
  have hmod : (x + 5 * y) % 5 = x := by omega
  have hdiv : (x + 5 * y) / 5 = y := by omega
  unfold lane grid
  rw [laneAt_tabulate _ _ (by omega), hmod, hdiv]

theorem laneAt_eq_lane (A : Lanes) (j : Nat) : laneAt A j = lane A (j % 5) (j / 5) := by
  unfold lane
  congr 1
  omega

/-- Two States with the same lanes by number are equal. -/
theorem lanes_ext_at {A B : Lanes} (h : ∀ j, j < 25 → laneAt A j = laneAt B j) : A = B := by
  rw [← eq_tabulate A 0, ← eq_tabulate B 0]
  exact tabulate_congr h

/-- Two States with the same lanes by coordinates are equal (R13). -/
theorem lanes_ext {A B : Lanes} (h : ∀ x y, x < 5 → y < 5 → lane A x y = lane B x y) : A = B :=
  lanes_ext_at fun j hj => by
    rw [laneAt_eq_lane, laneAt_eq_lane]
    exact h _ _ (Nat.mod_lt _ (by omega)) (by omega)

@[simp] theorem lane_zeroLanes (x y : Nat) (hx : x < 5) (hy : y < 5) : lane zeroLanes x y = 0 := by
  simp [zeroLanes, hx, hy]

/-- Bit `i` of `rotl64(a, n)` is bit `i - n` of `a`, mod 64 (R9). -/
theorem rotl64_bit (a : Lane) (n i : Nat) (hn : n < 64) (hi : i < 64) :
    (rotl64 a n).getLsbD i = a.getLsbD ((i + 64 - n) % 64) := by
  unfold rotl64
  split
  · next h => subst h; simp [Nat.mod_eq_of_lt hi]
  · next h =>
    by_cases hin : i < n
    · have hm : (i + 64 - n) % 64 = i + 64 - n := Nat.mod_eq_of_lt (by omega)
      have hs : 64 - n + i = i + 64 - n := by omega
      simp [hi, hin, hm, hs]
    · have hm : (i + 64 - n) % 64 = i - n := by
        rw [show i + 64 - n = (i - n) + 64 by omega, Nat.add_mod_right, Nat.mod_eq_of_lt (by omega)]
      rw [hm, BitVec.getLsbD_or, BitVec.getLsbD_shiftLeft, BitVec.getLsbD_ushiftRight,
        BitVec.getLsbD_of_ge a (64 - n + i) (by omega)]
      simp [hi, hin]

/-! ### Bytes -/

theorem byteOfLane_bit (v : Lane) (k i : Nat) (hi : i < 8) : (byteOfLane v k).getLsbD i = v.getLsbD (8 * k + i) := by
  simp [byteOfLane, hi]

/-- Bit `j` of the lane made of bytes `b` is bit `j mod 8` of byte `j / 8` (R15, R39). -/
theorem laneOfBytes_bit (b : Nat → Byte) (j : Nat) (hj : j < 64) :
    (laneOfBytes b).getLsbD j = (b (j / 8)).getLsbD (j % 8) := by
  unfold laneOfBytes
  simp only [BitVec.getLsbD_append]
  rcases (by omega : j / 8 = 0 ∨ j / 8 = 1 ∨ j / 8 = 2 ∨ j / 8 = 3 ∨ j / 8 = 4 ∨ j / 8 = 5 ∨ j / 8 = 6 ∨ j / 8 = 7)
    with h | h | h | h | h | h | h | h <;> rw [h] <;>
  (repeat (first | rw [if_pos (by omega)] | rw [if_neg (by omega)])) <;> congr 1 <;> omega

/-- A byte written into a lane is read back (R15). -/
theorem byteOfLane_laneOfBytes (b : Nat → Byte) (k : Nat) (hk : k < 8) : byteOfLane (laneOfBytes b) k = b k := by
  ext i hi
  rw [← BitVec.getLsbD_eq_getElem, ← BitVec.getLsbD_eq_getElem, byteOfLane_bit _ _ _ hi,
    laneOfBytes_bit _ _ (by omega)]
  congr 2 <;> omega

/-- A lane is made of its own bytes (R15). -/
theorem laneOfBytes_byteOfLane (v : Lane) : laneOfBytes (byteOfLane v) = v := by
  ext i hi
  rw [← BitVec.getLsbD_eq_getElem, ← BitVec.getLsbD_eq_getElem, laneOfBytes_bit _ _ hi,
    byteOfLane_bit _ _ _ (by omega)]
  congr 1
  omega

theorem laneOfBytes_congr {b c : Nat → Byte} (h : ∀ k, k < 8 → b k = c k) : laneOfBytes b = laneOfBytes c := by
  unfold laneOfBytes
  rw [h 0 (by omega), h 1 (by omega), h 2 (by omega), h 3 (by omega), h 4 (by omega), h 5 (by omega), h 6 (by omega),
    h 7 (by omega)]

theorem stateByte_of_lane (A : Lanes) (x y k : Nat) (hk : k < 8) :
    stateByte A (8 * (x + 5 * y) + k) = byteOfLane (lane A x y) k := by
  unfold stateByte lane
  congr 1
  · congr 1; omega
  · omega

theorem stateByte_of_laneAt (A : Lanes) (j k : Nat) (hk : k < 8) :
    stateByte A (8 * j + k) = byteOfLane (laneAt A j) k := by
  unfold stateByte
  congr 1
  · congr 1; omega
  · omega

/-- The bytes a State is made of are read back (R15). -/
theorem stateByte_lanesOfBytes (b : Nat → Byte) (i : Nat) (hi : i < 200) : stateByte (lanesOfBytes b) i = b i := by
  unfold stateByte lanesOfBytes
  rw [laneAt_tabulate _ _ (by omega), byteOfLane_laneOfBytes _ _ (by omega)]
  congr 1
  omega

theorem laneAt_lanesOfBytes (b : Nat → Byte) (j : Nat) (hj : j < 25) :
    laneAt (lanesOfBytes b) j = laneOfBytes fun k => b (8 * j + k) := by
  unfold lanesOfBytes
  rw [laneAt_tabulate _ _ hj]

/-- There is no byte of `S` above 199. -/
theorem stateByte_of_ge (A : Lanes) (i : Nat) (hi : 200 ≤ i) : stateByte A i = 0 := by
  unfold stateByte
  rw [laneAt_of_ge _ _ (by omega)]
  simp [byteOfLane]

/-- Two States with the same 200 bytes are equal (R15: `SB` is an alias). -/
theorem lanes_ext_bytes {A B : Lanes} (h : ∀ i, i < 200 → stateByte A i = stateByte B i) : A = B :=
  lanes_ext_at fun j hj => by
    rw [← laneOfBytes_byteOfLane (laneAt A j), ← laneOfBytes_byteOfLane (laneAt B j)]
    refine laneOfBytes_congr fun k hk => ?_
    rw [← stateByte_of_laneAt _ _ _ hk, ← stateByte_of_laneAt _ _ _ hk]
    exact h _ (by omega)

/-! ### Buffers -/

theorem bufByte_tabulate (f : Nat → Byte) (i : Nat) (h : i < 144) : bufByte (tabulate 144 f) i = f i :=
  getD_tabulate 144 f i 0 h

theorem outByte_tabulate (f : Nat → Byte) (i : Nat) (h : i < 64) : outByte (tabulate 64 f) i = f i :=
  getD_tabulate 64 f i 0 h

theorem buf_ext {B C : Vector Byte 144} (h : ∀ i, i < 144 → bufByte B i = bufByte C i) : B = C := by
  rw [← eq_tabulate B 0, ← eq_tabulate C 0]
  exact tabulate_congr h

theorem out_ext {O P : Vector Byte 64} (h : ∀ i, i < 64 → outByte O i = outByte P i) : O = P := by
  rw [← eq_tabulate O 0, ← eq_tabulate P 0]
  exact tabulate_congr h

theorem overlay_inside (old : Nat → Byte) (base n k : Nat) (v : Lane) (h : k < n) :
    overlay old base n v (base + k) = byteOfLane v k := by
  simp [overlay, h]

theorem overlay_outside (old : Nat → Byte) (base n i : Nat) (v : Lane) (h : i < base ∨ base + n ≤ i) :
    overlay old base n v i = old i := by
  unfold overlay
  rw [if_neg (by omega)]

/-! ### The shape of a command (R58) -/

theorem runCommand_illegal {α : Type} (operand : Except Err α) (effect : α → State → State) (s : State) :
    runCommand false operand effect s = .next { s with err := .eSeq, ef := true } := rfl

theorem runCommand_error {α : Type} (e : Err) (effect : α → State → State) (s : State) :
    runCommand true (.error e) effect s = .next { s with err := e, ef := true } := rfl

theorem runCommand_ok {α : Type} (a : α) (effect : α → State → State) (s : State) :
    runCommand true (.ok a) effect s = .next { effect a s with err := .eNone } := rfl

/-- Everything a command can do: raise `E_SEQ` when it is not legal, raise its operand's error, or have its effect and
complete (R58, R116, R118). -/
theorem runCommand_cases {α : Type} {legal : Bool} {operand : Except Err α} {effect : α → State → State} {s t : State}
    (h : runCommand legal operand effect s = .next t) :
    (legal = false ∧ t = { s with err := .eSeq, ef := true }) ∨
      (∃ e, legal = true ∧ operand = .error e ∧ t = { s with err := e, ef := true }) ∨
      ∃ a, legal = true ∧ operand = .ok a ∧ t = { effect a s with err := .eNone } := by
  cases legal with
  | false => exact .inl ⟨rfl, by injection h with h; exact h.symm⟩
  | true =>
    cases operand with
    | error e => exact .inr (.inl ⟨e, rfl, rfl, by injection h with h; exact h.symm⟩)
    | ok a => exact .inr (.inr ⟨a, rfl, rfl, by injection h with h; exact h.symm⟩)

/-- No command stops the machine (R119, R120). -/
theorem runCommand_next {α : Type} (legal : Bool) (operand : Except Err α) (effect : α → State → State) (s : State) :
    ∃ t, runCommand legal operand effect s = .next t := by
  cases legal with
  | false => exact ⟨_, rfl⟩
  | true => cases operand with
    | error e => exact ⟨_, rfl⟩
    | ok a => exact ⟨_, rfl⟩

/-! ### Operands -/

theorem params_of_legal {L : Nat} (h : L ∈ legalLengths) : params L = .ok (prmOf L) := if_pos h

theorem params_of_illegal {L : Nat} (h : L ∉ legalLengths) : params L = .error .eCfg := if_neg h

theorem padLength_of_lt {p : Prm} {n : Nat} (h : n < p.rateBytes) : padLength p n = .ok n := if_pos h

theorem padLength_of_ge {p : Prm} {n : Nat} (h : p.rateBytes ≤ n) : padLength p n = .error .ePre :=
  if_neg (by omega)

theorem roundIndex_of_lt {r : Nat} (h : r < 24) : roundIndex r = .ok r := if_pos h

theorem roundIndex_of_ge {r : Nat} (h : 24 ≤ r) : roundIndex r = .error .ePre :=
  if_neg (by unfold roundCount; omega)

theorem direct_iff {s : State} : s.direct = true ↔ s.phase = .uninit := by simp [State.direct]

theorem directWithParams_iff {s : State} : s.directWithParams = true ↔ s.phase = .uninit ∧ s.pv = true := by
  simp [State.directWithParams]

/-- The byte counts of R64, for the four legal digest lengths. -/
theorem rateBytes_prmOf {L : Nat} (h : L ∈ legalLengths) : (prmOf L).rateBytes = (1600 - 2 * L) / 8 := by
  simp [legalLengths] at h
  rcases h with rfl | rfl | rfl | rfl <;> rfl

theorem digestBytes_prmOf {L : Nat} (h : L ∈ legalLengths) : (prmOf L).digestBytes = L / 8 := by
  simp [legalLengths] at h
  rcases h with rfl | rfl | rfl | rfl <;> rfl

end Machine

end Sys2Proof
end

