-- ==== Sys2Proof/Laws/Keccak.lean ====
section
/-! SUPPORT. One lemma per step mapping: each lane of its result from the lanes of its input. -/

namespace Sys2Proof.Machine

/-- R75. -/
theorem lane_thetaStep (A : Lanes) (x y : Nat) (hx : x < 5) (hy : y < 5) :
    lane (thetaStep A) x y = lane A x y ^^^ thetaD A x := lane_grid _ x y hx hy

/-- R77. -/
theorem lane_rhoStep (A : Lanes) (x y : Nat) (hx : x < 5) (hy : y < 5) :
    lane (rhoStep A) x y = rotl64 (lane A x y) (rotationOffset x y) := lane_grid _ x y hx hy

/-- R79, read from the destination. -/
theorem lane_piStep (A : Lanes) (x y : Nat) (hx : x < 5) (hy : y < 5) :
    lane (piStep A) x y = lane A ((x + 3 * y) % 5) x := lane_grid _ x y hx hy

/-- R81. -/
theorem lane_chiStep (A : Lanes) (x y : Nat) (hx : x < 5) (hy : y < 5) :
    lane (chiStep A) x y = lane A x y ^^^ (~~~(lane A ((x + 1) % 5) y) &&& lane A ((x + 2) % 5) y) :=
  lane_grid _ x y hx hy

/-- R83. -/
theorem lane_iotaStep (A : Lanes) (r x y : Nat) (hx : x < 5) (hy : y < 5) :
    lane (iotaStep A r) x y = if x = 0 ∧ y = 0 then lane A 0 0 ^^^ roundConstant r else lane A x y :=
  lane_grid _ x y hx hy

/-- Every rotation offset is below 64 (R29). -/
theorem rotationOffset_lt (x y : Nat) (hx : x < 5) (hy : y < 5) : rotationOffset x y < 64 := by
  have h : ∀ x : Fin 5, ∀ y : Fin 5, rotationOffset x y < 64 := by decide
  exact h ⟨x, hx⟩ ⟨y, hy⟩

end Sys2Proof.Machine
end

