-- ==== Sys2Proof/Laws/Sponge.lean ====
section
/-! SUPPORT. What XORing a block and squeezing do. -/

namespace Sys2Proof.Machine

/-- R92: inside the rate region the block is XORed in, outside nothing changes. -/
theorem stateByte_xorBlock (A : Lanes) (blk : Nat → Byte) (RB i : Nat) (hi : i < 200) :
    stateByte (xorBlock A blk RB) i = if i < RB then stateByte A i ^^^ blk i else stateByte A i :=
  stateByte_lanesOfBytes _ i hi

/-- XorBlock looks at the first `RB` bytes of the block only (R92). -/
theorem xorBlock_congr (A : Lanes) {b c : Nat → Byte} (RB : Nat) (h : ∀ i, i < RB → b i = c i) :
    xorBlock A b RB = xorBlock A c RB :=
  lanes_ext_bytes fun i hi => by
    rw [stateByte_xorBlock _ _ _ _ hi, stateByte_xorBlock _ _ _ _ hi]
    split
    · next hr => rw [h i hr]
    · rfl

/-- R97: when the digest fits in the rate the loop runs once and does not permute. -/
theorem squeezeLoop_of_le (fuel : Nat) (A : Lanes) (need RB : Nat) (h : need ≤ RB) :
    squeezeLoop (fuel + 1) A need RB = (A, (List.range need).map (stateByte A)) := by
  simp [squeezeLoop, Nat.min_eq_left h]

theorem squeezeOut_of_le (A : Lanes) (DB RB : Nat) (h : DB ≤ RB) :
    squeezeOut A DB RB = (A, (List.range DB).map (stateByte A)) := squeezeLoop_of_le DB A DB RB h

/-- R95: one chunk of a longer output, then the permutation. -/
theorem squeezeLoop_of_gt (fuel : Nat) (A : Lanes) (need RB : Nat) (h : RB < need) :
    squeezeLoop (fuel + 1) A need RB =
      ((squeezeLoop fuel (keccakF A) (need - RB) RB).1,
        (List.range RB).map (stateByte A) ++ (squeezeLoop fuel (keccakF A) (need - RB) RB).2) := by
  simp only [squeezeLoop, Nat.min_eq_right (Nat.le_of_lt h)]
  rw [if_neg (by omega)]

/-- R96: the digest bytes in front, the old bytes behind. -/
theorem outByte_digestInto (O : Vector Byte 64) (DB : Nat) (d : List Byte) (i : Nat) (hi : i < 64) :
    outByte (digestInto O DB d) i = if i < DB then d.getD i 0 else outByte O i := outByte_tabulate _ i hi

/-- The byte of a squeeze that fits in the rate. -/
theorem outByte_squeeze_of_le (O : Vector Byte 64) (A : Lanes) (DB RB i : Nat) (hle : DB ≤ RB) (hi : i < 64) :
    outByte (digestInto O DB (squeezeOut A DB RB).2) i = if i < DB then stateByte A i else outByte O i := by
  rw [outByte_digestInto _ _ _ _ hi, squeezeOut_of_le _ _ _ hle]
  split
  · next h => simp [List.getD, h]
  · rfl

end Sys2Proof.Machine
end

