-- ==== Sys2Proof/Laws/Step.lean ====
section
/-! SUPPORT. What the host window and one step do, once, for the proofs to cite. -/

namespace Sys2Proof.Machine

/-! ### Regions (R34) -/

theorem regionOf_state {a : Nat} : regionOf a = .state ↔ a < 0xC8 := by
  unfold regionOf
  split_ifs <;> simp only [true_iff, false_iff] <;> omega

theorem regionOf_buf {a : Nat} : regionOf a = .buf ↔ 0x100 ≤ a ∧ a < 0x190 := by
  unfold regionOf
  split_ifs <;> simp only [true_iff, false_iff] <;> omega

theorem regionOf_out {a : Nat} : regionOf a = .out ↔ 0x200 ≤ a ∧ a < 0x240 := by
  unfold regionOf
  split_ifs <;> simp only [true_iff, false_iff] <;> omega

theorem regionOf_registers {a : Nat} : regionOf a = .registers ↔ 0x300 ≤ a ∧ a < 0x31C := by
  unfold regionOf
  split_ifs <;> simp only [true_iff, false_iff] <;> omega

/-- All bytes of a well-shaped access lie in the region of its first byte (R41 c). -/
theorem regionOf_inside {a n k : Nat} (h : wellShaped a n = true) (hk : k < n) : regionOf (a + k) = regionOf a := by
  simp only [wellShaped, Bool.and_eq_true, List.all_eq_true, List.mem_range, beq_iff_eq] at h
  exact h.2 k hk

/-- (a), (b), (c) of R41 with the map of R34 written out. -/
theorem wellShaped_iff {a n : Nat} : wellShaped a n = true ↔
    (n = 1 ∨ n = 2 ∨ n = 4 ∨ n = 8) ∧ n ∣ a ∧
      (a + n ≤ 0xC8 ∨ (0x100 ≤ a ∧ a + n ≤ 0x190) ∨ (0x200 ≤ a ∧ a + n ≤ 0x240) ∨ (0x300 ≤ a ∧ a + n ≤ 0x31C)) := by
  constructor
  · intro h
    have hin := fun k => regionOf_inside (k := k) h
    simp only [wellShaped, Bool.and_eq_true, decide_eq_true_eq, List.mem_cons, List.not_mem_nil, or_false,
      ← Nat.dvd_iff_mod_eq_zero, bne_iff_ne] at h
    obtain ⟨⟨⟨hn, hd⟩, hm⟩, -⟩ := h
    have hlast := hin (n - 1) (by omega)
    refine ⟨hn, hd, ?_⟩
    cases hr : regionOf a with
    | state => rw [hr, regionOf_state] at hlast; omega
    | buf => rw [hr, regionOf_buf] at hlast; rw [regionOf_buf] at hr; omega
    | out => rw [hr, regionOf_out] at hlast; rw [regionOf_out] at hr; omega
    | registers => rw [hr, regionOf_registers] at hlast; rw [regionOf_registers] at hr; omega
    | unmapped => exact absurd hr hm
  · rintro ⟨hn, hd, h⟩
    have close : ∀ r, r ≠ .unmapped → (∀ k, k < n → regionOf (a + k) = r) → wellShaped a n = true := by
      intro r hr hk
      have h0 : regionOf a = r := hk 0 (by omega)
      simp only [wellShaped, Bool.and_eq_true, List.all_eq_true, List.mem_range, beq_iff_eq, decide_eq_true_eq,
        List.mem_cons, List.not_mem_nil, or_false, ← Nat.dvd_iff_mod_eq_zero, bne_iff_ne, h0]
      exact ⟨⟨⟨hn, hd⟩, hr⟩, hk⟩
    rcases h with h | h | h | h
    · exact close .state (by decide) fun k _ => regionOf_state.mpr (by omega)
    · exact close .buf (by decide) fun k _ => regionOf_buf.mpr (by omega)
    · exact close .out (by decide) fun k _ => regionOf_out.mpr (by omega)
    · exact close .registers (by decide) fun k _ => regionOf_registers.mpr (by omega)

theorem wellShaped_of_read {a n : Nat} (h : readAdmitted a n = true) : wellShaped a n = true := by
  simp only [readAdmitted, Bool.and_eq_true] at h
  exact h.1

theorem wellShaped_of_write {s : State} {a n : Nat} (h : writeAdmitted s a n = true) : wellShaped a n = true := by
  simp only [writeAdmitted, Bool.and_eq_true] at h
  exact h.1

/-- The write to `CMD` is always admitted (R35, R123). -/
theorem writeAdmitted_cmd (s : State) : writeAdmitted s 0x300 4 = true := rfl

/-! ### One step, by the host's next move -/

theorem step_idle {s : State} (h : s.pending = []) : step s = .next s := by
  unfold step takeMove; rw [h]

theorem step_read {s : State} {a n : Nat} {rest : List HostMove} (h : s.pending = .read a n :: rest) :
    step s = .next (s.answer rest (if readAdmitted a n then .value (readValue s a n) else .refused)) := by
  unfold step takeMove; rw [h]; rfl

theorem step_reset {s : State} {rest : List HostMove} (h : s.pending = .reset :: rest) :
    step s = .next (State.afterReset (s.resets + 1) rest) := by
  unfold step takeMove; rw [h]

theorem step_write_refused {s : State} {a n : Nat} {v : BitVec 64} {rest : List HostMove}
    (h : s.pending = .write a n v :: rest) (hw : writeAdmitted s a n = false) :
    step s = .next (s.answer rest .refused) := by
  unfold step takeMove; rw [h]
  simp [hostWrite, hw]

theorem step_write_data {s : State} {a n : Nat} {v : BitVec 64} {rest : List HostMove}
    (h : s.pending = .write a n v :: rest) (hw : writeAdmitted s a n = true) (hr : regionOf a ≠ .registers) :
    step s = .next ((storeBytes s a n v).answer rest .accepted) := by
  unfold step takeMove; rw [h]
  simp [hostWrite, hw, hr]

theorem step_command {s : State} {v : BitVec 64} {rest : List HostMove} {i : Instr}
    (h : s.pending = .write 0x300 4 v :: rest) (hd : decode (v.setWidth 32) = .ok i) :
    step s = exec i (s.answer rest .accepted) := by
  unfold step takeMove; rw [h]
  simp only [hostWrite, writeAdmitted_cmd, if_true]
  rw [if_pos (by rfl)]
  simp only [hd]

theorem step_illegal {s : State} {v : BitVec 64} {rest : List HostMove} {e : Illegal}
    (h : s.pending = .write 0x300 4 v :: rest) (hd : decode (v.setWidth 32) = .error e) :
    step s = .next { s.answer rest .accepted with err := .eIll, ef := true } := by
  unfold step takeMove; rw [h]
  simp only [hostWrite, writeAdmitted_cmd, if_true]
  rw [if_pos (by rfl)]
  simp only [hd]
  rfl

/-- An admitted write to the register region is the 4-byte write to `CMD` (R35, R41 d). -/
theorem write_register_is_cmd {s : State} {a n : Nat} (hw : writeAdmitted s a n = true)
    (hr : regionOf a = .registers) : a = 0x300 ∧ n = 4 := by
  simp [writeAdmitted, hr, cmdAddr] at hw
  exact ⟨hw.2.2, hw.2.1⟩

/-- Everything one step can do. -/
theorem step_cases {s t : State} (h : step s = .next t) :
    (s.pending = [] ∧ t = s) ∨
    (∃ a n rest, s.pending = .read a n :: rest ∧
      t = s.answer rest (if readAdmitted a n then .value (readValue s a n) else .refused)) ∨
    (∃ a n v rest, s.pending = .write a n v :: rest ∧ writeAdmitted s a n = false ∧ t = s.answer rest .refused) ∨
    (∃ a n v rest, s.pending = .write a n v :: rest ∧ writeAdmitted s a n = true ∧ regionOf a ≠ .registers ∧
      t = (storeBytes s a n v).answer rest .accepted) ∨
    (∃ v rest i, s.pending = .write 0x300 4 v :: rest ∧ decode (v.setWidth 32) = .ok i ∧
      exec i (s.answer rest .accepted) = .next t) ∨
    (∃ v rest e, s.pending = .write 0x300 4 v :: rest ∧ decode (v.setWidth 32) = .error e ∧
      t = { s.answer rest .accepted with err := .eIll, ef := true }) ∨
    (∃ rest, s.pending = .reset :: rest ∧ t = State.afterReset (s.resets + 1) rest) := by
  cases hp : s.pending with
  | nil => rw [step_idle hp] at h; injection h with h; exact .inl ⟨rfl, h.symm⟩
  | cons m rest =>
    cases m with
    | read a n =>
      rw [step_read hp] at h; injection h with h
      exact .inr (.inl ⟨a, n, rest, rfl, h.symm⟩)
    | reset =>
      rw [step_reset hp] at h; injection h with h
      exact .inr (.inr (.inr (.inr (.inr (.inr ⟨rest, rfl, h.symm⟩)))))
    | write a n v =>
      cases hw : writeAdmitted s a n with
      | false =>
        rw [step_write_refused hp hw] at h; injection h with h
        exact .inr (.inr (.inl ⟨a, n, v, rest, rfl, hw, h.symm⟩))
      | true =>
        by_cases hr : regionOf a = .registers
        · obtain ⟨rfl, rfl⟩ := write_register_is_cmd hw hr
          cases hd : decode (v.setWidth 32) with
          | ok i =>
            rw [step_command hp hd] at h
            exact .inr (.inr (.inr (.inr (.inl ⟨v, rest, i, rfl, hd, h⟩))))
          | error e =>
            rw [step_illegal hp hd] at h; injection h with h
            exact .inr (.inr (.inr (.inr (.inr (.inl ⟨v, rest, e, rfl, hd, h.symm⟩)))))
        · rw [step_write_data hp hw hr] at h; injection h with h
          exact .inr (.inr (.inr (.inl ⟨a, n, v, rest, rfl, hw, hr, h.symm⟩)))

end Sys2Proof.Machine
end

