-- ==== Sys2Proof/Laws/Commands.lean ====
section
/-! SUPPORT. What each command does when it answers a next state: one lemma per command, and the ones that hold of all. -/

namespace Sys2Proof.Machine

/-- The state a raised error leaves (R116). -/
def State.failed (s : State) (e : Err) : State := { s with err := e, ef := true }

/-- No command stops the machine (R119, R138). -/
theorem exec_next (i : Instr) (s : State) : ∃ t, exec i s = .next t := by
  cases i with
  | spSqueeze => unfold exec execSpSqueeze; exact runCommand_next _ _ _ s
  | spClear => exact ⟨_, rfl⟩
  | _ => exact runCommand_next _ _ _ s

/-- A lane command: `E_SEQ` outside direct mode, else the State mapped. -/
theorem laneCommand_cases {f : Lanes → Lanes} {s t : State} (h : laneCommand f s = .next t) :
    (s.phase ≠ .uninit ∧ t = s.failed .eSeq) ∨
      (s.phase = .uninit ∧ t = { s with lanes := f s.lanes, err := .eNone }) := by
  rcases runCommand_cases h with ⟨hl, rfl⟩ | ⟨e, _, ho, _⟩ | ⟨a, hl, _, rfl⟩
  · exact .inl ⟨by simpa [State.direct] using hl, rfl⟩
  · cases ho
  · exact .inr ⟨direct_iff.mp hl, rfl⟩

/-- A lane command with a round index: `E_SEQ` outside direct mode, `E_PRE` above 23, else the State mapped. -/
theorem indexedLaneCommand_cases {f : Nat → Lanes → Lanes} {r : Nat} {s t : State}
    (h : indexedLaneCommand f r s = .next t) :
    (s.phase ≠ .uninit ∧ t = s.failed .eSeq) ∨
      (s.phase = .uninit ∧ 23 < r ∧ t = s.failed .ePre) ∨
      (s.phase = .uninit ∧ r ≤ 23 ∧ t = { s with lanes := f r s.lanes, err := .eNone }) := by
  by_cases hr : r < 24
  · have ho := roundIndex_of_lt hr
    rcases runCommand_cases h with ⟨hl, rfl⟩ | ⟨e, _, he, _⟩ | ⟨a, hl, ha, rfl⟩
    · exact .inl ⟨by simpa [State.direct] using hl, rfl⟩
    · rw [ho] at he; cases he
    · rw [ho] at ha; cases ha
      exact .inr (.inr ⟨direct_iff.mp hl, by omega, rfl⟩)
  · have ho := roundIndex_of_ge (by omega : 24 ≤ r)
    rcases runCommand_cases h with ⟨hl, rfl⟩ | ⟨e, hl, he, rfl⟩ | ⟨a, _, ha, _⟩
    · exact .inl ⟨by simpa [State.direct] using hl, rfl⟩
    · rw [ho] at he; cases he
      exact .inr (.inl ⟨direct_iff.mp hl, by omega, rfl⟩)
    · rw [ho] at ha; cases ha

/-- A command that takes a digest length: `E_SEQ` outside direct mode, `E_CFG` for an unsupported length, else its
effect on the length's parameters. -/
theorem paramsCommand_cases {effect : Prm → State → State} {L : Nat} {s t : State}
    (h : runCommand s.direct (params L) effect s = .next t) :
    (s.phase ≠ .uninit ∧ t = s.failed .eSeq) ∨
      (s.phase = .uninit ∧ L ∉ legalLengths ∧ t = s.failed .eCfg) ∨
      (s.phase = .uninit ∧ L ∈ legalLengths ∧ t = { effect (prmOf L) s with err := .eNone }) := by
  by_cases hL : L ∈ legalLengths
  · have ho := params_of_legal hL
    rcases runCommand_cases h with ⟨hl, rfl⟩ | ⟨e, _, he, _⟩ | ⟨a, hl, ha, rfl⟩
    · exact .inl ⟨by simpa [State.direct] using hl, rfl⟩
    · rw [ho] at he; cases he
    · rw [ho] at ha; cases ha
      exact .inr (.inr ⟨direct_iff.mp hl, hL, rfl⟩)
  · have ho := params_of_illegal hL
    rcases runCommand_cases h with ⟨hl, rfl⟩ | ⟨e, hl, he, rfl⟩ | ⟨a, _, ha, _⟩
    · exact .inl ⟨by simpa [State.direct] using hl, rfl⟩
    · rw [ho] at he; cases he
      exact .inr (.inl ⟨direct_iff.mp hl, hL, rfl⟩)
    · rw [ho] at ha; cases ha

/-- A command without operand: `E_SEQ` when it is not legal, else its effect. -/
theorem plainCommand_cases {legal : Bool} {effect : Unit → State → State} {s t : State}
    (h : runCommand legal noOperand effect s = .next t) :
    (legal = false ∧ t = s.failed .eSeq) ∨ (legal = true ∧ t = { effect () s with err := .eNone }) := by
  rcases runCommand_cases h with ⟨hl, rfl⟩ | ⟨e, _, he, _⟩ | ⟨a, hl, _, rfl⟩
  · exact .inl ⟨hl, rfl⟩
  · cases he
  · exact .inr ⟨hl, rfl⟩

theorem execSetlen_cases {L : Nat} {s t : State} (h : execSetlen L s = .next t) :
    (s.phase ≠ .uninit ∧ t = s.failed .eSeq) ∨
      (s.phase = .uninit ∧ L ∉ legalLengths ∧ t = s.failed .eCfg) ∨
      (s.phase = .uninit ∧ L ∈ legalLengths ∧ t = { s.loadParams (prmOf L) with err := .eNone }) :=
  paramsCommand_cases h

theorem execPad_cases {n : Nat} {s t : State} (h : execPad n s = .next t) :
    (s.pv = false ∧ t = s.failed .eSeq) ∨
      (s.pv = true ∧ s.prm.rateBytes ≤ n ∧ t = s.failed .ePre) ∨
      (s.pv = true ∧ n < s.prm.rateBytes ∧ t = { padBuf s.prm.rateBytes n s with err := .eNone }) := by
  by_cases hn : n < s.prm.rateBytes
  · have ho := padLength_of_lt hn
    rcases runCommand_cases h with ⟨hl, rfl⟩ | ⟨e, _, he, _⟩ | ⟨a, hl, ha, rfl⟩
    · exact .inl ⟨hl, rfl⟩
    · rw [ho] at he; cases he
    · rw [ho] at ha; cases ha
      exact .inr (.inr ⟨hl, hn, rfl⟩)
  · have ho := padLength_of_ge (by omega : s.prm.rateBytes ≤ n)
    rcases runCommand_cases h with ⟨hl, rfl⟩ | ⟨e, hl, he, rfl⟩ | ⟨a, _, ha, _⟩
    · exact .inl ⟨hl, rfl⟩
    · rw [ho] at he; cases he
      exact .inr (.inl ⟨hl, by omega, rfl⟩)
    · rw [ho] at ha; cases ha

theorem execAbsorb_cases {s t : State} (h : execAbsorb s = .next t) :
    (s.directWithParams = false ∧ t = s.failed .eSeq) ∨
      (s.directWithParams = true ∧ t = { absorbBuf s with err := .eNone }) := plainCommand_cases h

theorem execSqueeze_cases {s t : State} (h : execSqueeze s = .next t) :
    (s.directWithParams = false ∧ t = s.failed .eSeq) ∨
      (s.directWithParams = true ∧ t = { squeezeToOut s with err := .eNone }) := plainCommand_cases h

theorem execSpStart_cases {L : Nat} {s t : State} (h : execSpStart L s = .next t) :
    (s.phase ≠ .uninit ∧ t = s.failed .eSeq) ∨
      (s.phase = .uninit ∧ L ∉ legalLengths ∧ t = s.failed .eCfg) ∨
      (s.phase = .uninit ∧ L ∈ legalLengths ∧ t = { startSponge (prmOf L) s with err := .eNone }) :=
  paramsCommand_cases h

theorem execSpAbsorb_cases {last : Bool} {s t : State} (h : execSpAbsorb last s = .next t) :
    (s.phase ≠ .absorbing ∧ t = s.failed .eSeq) ∨
      (s.phase = .absorbing ∧ t = { absorbAndPermute last s with err := .eNone }) := by
  rcases plainCommand_cases h with ⟨hl, ht⟩ | ⟨hl, ht⟩
  · exact .inl ⟨by simpa using hl, ht⟩
  · exact .inr ⟨by simpa using hl, ht⟩

theorem execSpSqueeze_cases {s t : State} (h : execSpSqueeze s = .next t) :
    (s.phase ≠ .squeezing ∧ t = s.failed .eSeq) ∨
      (s.phase = .squeezing ∧ t = { squeezeToOut s with phase := .done, err := .eNone }) := by
  rcases plainCommand_cases h with ⟨hl, ht⟩ | ⟨hl, ht⟩
  · exact .inl ⟨by simpa using hl, ht⟩
  · exact .inr ⟨by simpa using hl, ht⟩

theorem execSpClear_next (s : State) : execSpClear s = .next { s with phase := .uninit, err := .eNone } := rfl

/-- The shape shared by all commands: a command raises
an error and leaves the rest, or it completes with `ERR = 0` and `EF` as it was (R24, R25, R116). -/
theorem runCommand_fails_or_completes {α : Type} {legal : Bool} {operand : Except Err α} {effect : α → State → State}
    {s t : State} (hop : operand ≠ .error .eNone) (hef : ∀ a, (effect a s).ef = s.ef)
    (h : runCommand legal operand effect s = .next t) :
    (∃ e, e ≠ .eNone ∧ t = s.failed e) ∨ (t.err = .eNone ∧ t.ef = s.ef) := by
  rcases runCommand_cases h with ⟨_, rfl⟩ | ⟨e, _, ho, rfl⟩ | ⟨a, _, _, rfl⟩
  · exact .inl ⟨_, by decide, rfl⟩
  · exact .inl ⟨e, fun he => hop (by rw [ho, he]), rfl⟩
  · exact .inr ⟨rfl, hef a⟩

theorem params_ne_eNone (L : Nat) : params L ≠ .error .eNone := by
  unfold params; split <;> simp

theorem padLength_ne_eNone (p : Prm) (n : Nat) : padLength p n ≠ .error .eNone := by
  unfold padLength; split <;> simp

theorem roundIndex_ne_eNone (r : Nat) : roundIndex r ≠ .error .eNone := by
  unfold roundIndex; split <;> simp

theorem noOperand_ne_error (e : Err) : noOperand ≠ .error e := by simp [noOperand]

/-- Every command raises an error and leaves the rest alone, or completes with `ERR = 0` and `EF` as it was. -/
theorem exec_fails_or_completes {i : Instr} {s t : State} (h : exec i s = .next t) :
    (∃ e, e ≠ .eNone ∧ t = s.failed e) ∨ (t.err = .eNone ∧ t.ef = s.ef) := by
  cases i with
  | setlen L => exact runCommand_fails_or_completes (params_ne_eNone L) (fun _ => rfl) h
  | spStart L => exact runCommand_fails_or_completes (params_ne_eNone L) (fun _ => rfl) h
  | pad n => exact runCommand_fails_or_completes (padLength_ne_eNone _ n) (fun _ => rfl) h
  | iota r => exact runCommand_fails_or_completes (roundIndex_ne_eNone r) (fun _ => rfl) h
  | round r => exact runCommand_fails_or_completes (roundIndex_ne_eNone r) (fun _ => rfl) h
  | spClear => injection h with h; subst h; exact .inr ⟨rfl, rfl⟩
  | spSqueeze =>
    rcases execSpSqueeze_cases h with ⟨_, rfl⟩ | ⟨_, rfl⟩
    · exact .inl ⟨_, by decide, rfl⟩
    · exact .inr ⟨rfl, rfl⟩
  | _ => exact runCommand_fails_or_completes (noOperand_ne_error _) (fun _ => rfl) h

/-! ### The parameters a sound state holds -/

/-- What a sound state with `PV = 1` knows of its byte counts (R64). -/
theorem State.Inv.byteCounts {s : State} (h : s.Inv) (hpv : s.pv = true) :
    ∃ L ∈ legalLengths, s.prm = prmOf L ∧ s.prm.rateBytes = (1600 - 2 * L) / 8 ∧ s.prm.digestBytes = L / 8 := by
  obtain ⟨L, hL, hp⟩ := h.prm_row hpv
  exact ⟨L, hL, hp, by rw [hp, rateBytes_prmOf hL], by rw [hp, digestBytes_prmOf hL]⟩

/-- In a sound state with parameters the digest is shorter than the rate, and the rate fits `BUF` (R64, R50). -/
theorem State.Inv.bounds {s : State} (h : s.Inv) (hpv : s.pv = true) :
    s.prm.digestBytes < s.prm.rateBytes ∧ s.prm.rateBytes ≤ 144 ∧ s.prm.digestBytes ≤ 64 ∧
      s.prm.rateBytes % 8 = 0 ∧ 72 ≤ s.prm.rateBytes := by
  obtain ⟨L, hL, -, hr, hd⟩ := h.byteCounts hpv
  simp [legalLengths] at hL
  rw [hr, hd]
  rcases hL with rfl | rfl | rfl | rfl <;> decide

end Sys2Proof.Machine
end

