-- ==== Sys2Proof/Laws/Encoding.lean ====
section
/-! SUPPORT. The fields of a command word (30_encoding.md R52), and that two words with the same fields are equal. -/

namespace Sys2Proof

/-- The bits of a command word, field by field (R52). -/
theorem commandWord_bit (op a b i : Nat) :
    (commandWord op a b).getLsbD i =
      if i < 8 then (BitVec.ofNat 8 op).getLsbD i
      else if i < 16 then (BitVec.ofNat 8 a).getLsbD (i - 8)
      else (BitVec.ofNat 16 b).getLsbD (i - 16) := by
  unfold commandWord
  simp only [BitVec.getLsbD_append]
  by_cases h8 : i < 8
  · simp [h8]
  · by_cases h16 : i < 16
    · simp [h8, h16, show i - 8 < 8 by omega]
    · simp [h8, h16, show ¬ i - 8 < 8 by omega, show i - 8 - 8 = i - 16 by omega]

theorem opField_commandWord (op a b : Nat) : opField (commandWord op a b) = op % 256 := by
  have h : (commandWord op a b).extractLsb' 0 8 = BitVec.ofNat 8 op := by
    apply BitVec.eq_of_getLsbD_eq
    intro i hi
    simp only [BitVec.getLsbD_extractLsb', commandWord_bit]
    simp [hi]
  unfold opField
  rw [h]; simp

theorem aField_commandWord (op a b : Nat) : aField (commandWord op a b) = a % 256 := by
  have h : (commandWord op a b).extractLsb' 8 8 = BitVec.ofNat 8 a := by
    apply BitVec.eq_of_getLsbD_eq
    intro i hi
    simp only [BitVec.getLsbD_extractLsb', commandWord_bit]
    simp [hi, show ¬ 8 + i < 8 by omega, show 8 + i < 16 by omega]
  unfold aField
  rw [h]; simp

theorem bField_commandWord (op a b : Nat) : bField (commandWord op a b) = b % 65536 := by
  have h : (commandWord op a b).extractLsb' 16 16 = BitVec.ofNat 16 b := by
    apply BitVec.eq_of_getLsbD_eq
    intro i hi
    simp only [BitVec.getLsbD_extractLsb', commandWord_bit]
    simp [hi, show ¬ 16 + i < 8 by omega, show ¬ 16 + i < 16 by omega]
  unfold bField
  rw [h]; simp

/-- A word is its three fields (R52). -/
theorem commandWord_of_fields (w : Word) : commandWord (opField w) (aField w) (bField w) = w := by
  apply BitVec.eq_of_getLsbD_eq
  intro i hi
  rw [commandWord_bit]
  unfold opField aField bField
  simp only [BitVec.ofNat_toNat, BitVec.setWidth_eq, BitVec.getLsbD_extractLsb']
  by_cases h8 : i < 8
  · simp [h8]
  · by_cases h16 : i < 16
    · simp [h8, h16, show i - 8 < 8 by omega, show 8 + (i - 8) = i by omega]
    · simp [h8, h16, show i - 16 < 16 by omega, show 16 + (i - 16) = i by omega]

/-- Two words with the same three fields are equal (R52). -/
theorem word_ext {v w : Word} (hop : opField v = opField w) (ha : aField v = aField w) (hb : bField v = bField w) :
    v = w := by
  rw [← commandWord_of_fields v, ← commandWord_of_fields w, hop, ha, hb]

theorem opField_lt (w : Word) : opField w < 256 := (w.extractLsb' 0 8).isLt

theorem aField_lt (w : Word) : aField w < 256 := (w.extractLsb' 8 8).isLt

theorem bField_lt (w : Word) : bField w < 65536 := (w.extractLsb' 16 16).isLt

/-! ### Masks, field by field (R55) -/

theorem opField_and (v w : Word) : opField (v &&& w) = opField v &&& opField w := by
  unfold opField
  rw [← BitVec.toNat_and]
  congr 1
  apply BitVec.eq_of_getLsbD_eq
  intro i hi
  simp [hi]

theorem aField_and (v w : Word) : aField (v &&& w) = aField v &&& aField w := by
  unfold aField
  rw [← BitVec.toNat_and]
  congr 1
  apply BitVec.eq_of_getLsbD_eq
  intro i hi
  simp [hi]

theorem bField_and (v w : Word) : bField (v &&& w) = bField v &&& bField w := by
  unfold bField
  rw [← BitVec.toNat_and]
  congr 1
  apply BitVec.eq_of_getLsbD_eq
  intro i hi
  simp [hi]

/-- A row covers a word exactly when it does so in each of the three fields. -/
theorem covers_iff_fields (r : OpcodeRow) (w : Word) :
    r.covers w = true ↔
      opField w &&& opField r.mask = opField r.pattern ∧ aField w &&& aField r.mask = aField r.pattern ∧
        bField w &&& bField r.mask = bField r.pattern := by
  unfold OpcodeRow.covers
  rw [beq_iff_eq]
  constructor
  · intro h
    rw [← opField_and, ← aField_and, ← bField_and, h]
    exact ⟨rfl, rfl, rfl⟩
  · rintro ⟨h1, h2, h3⟩
    exact word_ext (by rw [opField_and, h1]) (by rw [aField_and, h2]) (by rw [bField_and, h3])

/-- A full byte mask keeps the field `OP`. -/
theorem opField_and_full (w : Word) : opField w &&& 255 = opField w := by
  rw [Nat.and_two_pow_sub_one_eq_mod _ 8, Nat.mod_eq_of_lt (opField_lt w)]

/-- A full byte mask keeps the field `A`. -/
theorem aField_and_full (w : Word) : aField w &&& 255 = aField w := by
  rw [Nat.and_two_pow_sub_one_eq_mod _ 8, Nat.mod_eq_of_lt (aField_lt w)]

/-- A full mask keeps the field `B`. -/
theorem bField_and_full (w : Word) : bField w &&& 65535 = bField w := by
  rw [Nat.and_two_pow_sub_one_eq_mod _ 16, Nat.mod_eq_of_lt (bField_lt w)]

/-- A byte with nothing outside bit 0 is 0 or 1. -/
theorem and_254_eq_zero {a : Nat} (h : a < 256) : a &&& 254 = 0 ↔ a < 2 := by
  have key : ∀ a : Fin 256, a.val &&& 254 = 0 ↔ a.val < 2 := by decide +kernel
  exact key ⟨a, h⟩

/-- `last` is bit 0 of the field `A` (R52, R53). -/
theorem lastField_eq (w : Word) (h : aField w < 2) : aField w = if lastField w then 1 else 0 := by
  have hb : (w.extractLsb' 8 8).getLsbD 0 = lastField w := by simp [lastField]
  have h0 : (w.extractLsb' 8 8).getLsbD 0 = decide (aField w % 2 = 1) := by
    rw [BitVec.getLsbD, Nat.testBit_zero]
    rfl
  rw [← hb, h0]
  rcases (by omega : aField w = 0 ∨ aField w = 1) with h | h <;> simp [h]

/-- What a word the decoder takes for a command looks like, field by field (R54, R55). -/
theorem decode_fields {w : Word} {i : Instr} (h : decode w = .ok i) :
    ∃ r ∈ opcodeRows, i = r.build w ∧ opField w &&& opField r.mask = opField r.pattern ∧
      aField w &&& aField r.mask = aField r.pattern ∧ bField w &&& bField r.mask = bField r.pattern := by
  unfold decode at h
  split at h
  · next r hr =>
    injection h with h
    exact ⟨r, List.mem_of_find?_eq_some hr, h.symm, (covers_iff_fields r w).mp (by simpa using List.find?_some hr)⟩
  · cases h

/-- The word an instruction is encoded to, as fields: its opcode and where its operand goes (R54). -/
theorem encode_fields (i : Instr) : ∃ op a b, encode i = commandWord op a b ∧ op ∈ listedOpcodes := by
  cases i <;> exact ⟨_, _, _, rfl, by decide⟩

end Sys2Proof
end

