-- ==== Sys2Proof/Laws/PerInstr.lean ====
section
/-! SUPPORT. Facts about every command as it is written, one lemma per constructor.

`EncodesInFields`: the word of a well-formed command carries its operand unshortened in the field R52 gives it, and zero in
the field it does not use. -/

namespace Sys2Proof.Laws.EncodesInFields

/-- The `A` and `B` fields a command's word has to have (R52, R54). -/
def fields : Instr → Nat × Nat
  | .setlen L => (0, L)
  | .zero => (0, 0)
  | .pad n => (n, 0)
  | .absorb => (0, 0)
  | .squeeze => (0, 0)
  | .theta => (0, 0)
  | .rho => (0, 0)
  | .pi => (0, 0)
  | .chi => (0, 0)
  | .iota r => (r, 0)
  | .round r => (r, 0)
  | .permute => (0, 0)
  | .spStart L => (0, L)
  | .spAbsorb last => (if last then 1 else 0, 0)
  | .spSqueeze => (0, 0)
  | .spClear => (0, 0)

/-- The statement about one command. -/
def Statement (i : Instr) : Prop :=
  i.wellFormed = true → aField (encode i) = (fields i).1 ∧ bField (encode i) = (fields i).2

theorem setlen (L : Nat) : Statement (.setlen L) := fun h => by
  have hL : L < 65536 := of_decide_eq_true h
  exact ⟨aField_commandWord _ _ _, by rw [encode, bField_commandWord, fields, Nat.mod_eq_of_lt hL]⟩

theorem zero : Statement .zero := fun _ => ⟨aField_commandWord _ _ _, bField_commandWord _ _ _⟩

theorem pad (n : Nat) : Statement (.pad n) := fun h => by
  have hn : n < 256 := of_decide_eq_true h
  exact ⟨by rw [encode, aField_commandWord, fields, Nat.mod_eq_of_lt hn], bField_commandWord _ _ _⟩

theorem absorb : Statement .absorb := fun _ => ⟨aField_commandWord _ _ _, bField_commandWord _ _ _⟩

theorem squeeze : Statement .squeeze := fun _ => ⟨aField_commandWord _ _ _, bField_commandWord _ _ _⟩

theorem theta : Statement .theta := fun _ => ⟨aField_commandWord _ _ _, bField_commandWord _ _ _⟩

theorem rho : Statement .rho := fun _ => ⟨aField_commandWord _ _ _, bField_commandWord _ _ _⟩

theorem pi : Statement .pi := fun _ => ⟨aField_commandWord _ _ _, bField_commandWord _ _ _⟩

theorem chi : Statement .chi := fun _ => ⟨aField_commandWord _ _ _, bField_commandWord _ _ _⟩

theorem iota (r : Nat) : Statement (.iota r) := fun h => by
  have hr : r < 256 := of_decide_eq_true h
  exact ⟨by rw [encode, aField_commandWord, fields, Nat.mod_eq_of_lt hr], bField_commandWord _ _ _⟩

theorem round (r : Nat) : Statement (.round r) := fun h => by
  have hr : r < 256 := of_decide_eq_true h
  exact ⟨by rw [encode, aField_commandWord, fields, Nat.mod_eq_of_lt hr], bField_commandWord _ _ _⟩

theorem permute : Statement .permute := fun _ => ⟨aField_commandWord _ _ _, bField_commandWord _ _ _⟩

theorem spStart (L : Nat) : Statement (.spStart L) := fun h => by
  have hL : L < 65536 := of_decide_eq_true h
  exact ⟨aField_commandWord _ _ _, by rw [encode, bField_commandWord, fields, Nat.mod_eq_of_lt hL]⟩

theorem spAbsorb (last : Bool) : Statement (.spAbsorb last) := fun _ => by
  cases last <;> exact ⟨aField_commandWord _ _ _, bField_commandWord _ _ _⟩

theorem spSqueeze : Statement .spSqueeze := fun _ => ⟨aField_commandWord _ _ _, bField_commandWord _ _ _⟩

theorem spClear : Statement .spClear := fun _ => ⟨aField_commandWord _ _ _, bField_commandWord _ _ _⟩

end Sys2Proof.Laws.EncodesInFields
end

