-- ==== Sys2Proof/Tests/Slice0.lean ====
section
/-! SUPPORT. The session's own tests. Every expected value comes from the spec: the words of 30_encoding.md R55 and R62, the
vectors of 95_test_vectors.md (named V<n> beside each test), the examples of the command rules. At the end: for each
statement with hypotheses, a state and operands that meet them. -/

namespace Sys2Proof.Tests

open Sys2Proof.Machine

/-! ### WellFormed: each check refuses an ill-formed command (R52) -/

theorem test_wf_setlen_refuses : (Instr.setlen 65536).wellFormed = false ∧ (Instr.setlen 65535).wellFormed = true := by decide

theorem test_wf_pad_refuses : (Instr.pad 256).wellFormed = false ∧ (Instr.pad 255).wellFormed = true := by decide

theorem test_wf_iota_refuses : (Instr.iota 256).wellFormed = false ∧ (Instr.iota 255).wellFormed = true := by decide

theorem test_wf_round_refuses : (Instr.round 256).wellFormed = false ∧ (Instr.round 255).wellFormed = true := by decide

theorem test_wf_spStart_refuses :
    (Instr.spStart 65536).wellFormed = false ∧ (Instr.spStart 65535).wellFormed = true := by decide

/-! ### Decode: one word per constructor, bits 31..16 (`B`), 15..8 (`A`), 7..0 (`OP`) as R52 and R54 give them -/

theorem test_decode_setlen : decode 0b0000000110000000_00000000_00000001 = .ok (.setlen 384) := by decide

theorem test_decode_zero : decode 0b0000000000000000_00000000_00000010 = .ok .zero := by decide

theorem test_decode_pad : decode 0b0000000000000000_00101011_00000011 = .ok (.pad 43) := by decide

theorem test_decode_absorb : decode 0b0000000000000000_00000000_00000100 = .ok .absorb := by decide

theorem test_decode_squeeze : decode 0b0000000000000000_00000000_00000101 = .ok .squeeze := by decide

theorem test_decode_theta : decode 0b0000000000000000_00000000_00010000 = .ok .theta := by decide

theorem test_decode_rho : decode 0b0000000000000000_00000000_00010001 = .ok .rho := by decide

theorem test_decode_pi : decode 0b0000000000000000_00000000_00010010 = .ok .pi := by decide

theorem test_decode_chi : decode 0b0000000000000000_00000000_00010011 = .ok .chi := by decide

theorem test_decode_iota : decode 0b0000000000000000_00010111_00010100 = .ok (.iota 23) := by decide

theorem test_decode_round : decode 0b0000000000000000_00000001_00010101 = .ok (.round 1) := by decide

theorem test_decode_permute : decode 0b0000000000000000_00000000_00010110 = .ok .permute := by decide

theorem test_decode_spStart : decode 0b0000000100000000_00000000_00100000 = .ok (.spStart 256) := by decide

theorem test_decode_spAbsorb :
    decode 0b0000000000000000_00000001_00100001 = .ok (.spAbsorb true) ∧
      decode 0b0000000000000000_00000000_00100001 = .ok (.spAbsorb false) := by decide

theorem test_decode_spSqueeze : decode 0b0000000000000000_00000000_00100010 = .ok .spSqueeze := by decide

theorem test_decode_spClear : decode 0b0000000000000000_00000000_00100011 = .ok .spClear := by decide

/-- V44 and R62: the three kinds of illegal word. -/
theorem test_decode_illegal_kinds :
    decode 0x00000000 = .error .unlistedOpcode ∧ decode 0x01000010 = .error .unusedFieldSet ∧
      decode 0x00000221 = .error .spAbsorbBitsSet := by decide

theorem test_decodeTableWord : decodeTableWord 32 0x00004703 = some (.pad 71) ∧ decodeTableWord 32 0x99 = none ∧
    decodeTableWord 8 0x00004716 = some .permute := by decide

/-- R59. -/
theorem test_asm : (Instr.setlen 256).asm = "SETLEN 256" ∧ Instr.spClear.asm = "SP_CLEAR" ∧
    (Instr.spAbsorb true).asm = "SP_ABSORB 1" := by decide +kernel

/-! ### Tables -/

/-- The walk of the rotation table (R29), worked by hand from (1, 0) by `(x, y) → (y, (2x + 3y) mod 5)`. -/
def walk : List (Nat × Nat) :=
  [(1, 0), (0, 2), (2, 1), (1, 2), (2, 3), (3, 3), (3, 0), (0, 1), (1, 3), (3, 1), (1, 4), (4, 4),
   (4, 0), (0, 3), (3, 4), (4, 3), (3, 2), (2, 2), (2, 0), (0, 4), (4, 2), (2, 4), (4, 1), (1, 1)]

/-- R29: each position follows from the one before. -/
theorem test_walk : ∀ p ∈ walk.zip (walk.drop 1), p.2 = (p.1.2, (2 * p.1.1 + 3 * p.1.2) % 5) := by decide

/-- R29: along the walk the offsets are the triangular numbers mod 64. -/
theorem test_rotation_walk :
    walk.map (fun p => rotationOffset p.1 p.2) = (List.range 24).map (fun t => (t + 1) * (t + 2) / 2 % 64) ∧
      rotationOffset 0 0 = 0 := by decide +kernel

/-- R28: only bits 0, 1, 3, 7, 15, 31 and 63 of a round constant can be 1, and there are 24 of them. -/
theorem test_roundConstant_bits : roundConstants.length = 24 ∧
    (roundConstants.all fun c => c ||| 0x800000008000808B#64 == 0x800000008000808B#64) = true := by decide +kernel

/-- R70, V15: the combined bytes of both pad profiles. -/
theorem test_pad_both : sha3Pad.both = 0x86 ∧ d0LiteralPad.both = 0x61 := by decide

/-! ### Small states -/

/-- A core in phase `p` with the parameters of `L`, zero State, and every buffer byte 0xAA (Part C of the vectors). -/
def core0 (p : Phase) (L : Nat) : State where
  lanes := zeroLanes
  buf := tabulate 144 fun _ => 0xAA
  out := tabulate 64 fun _ => 0xAA
  prm := prmOf L
  pv := true
  phase := p
  ocnt := if p = .done then BitVec.ofNat 32 (L / 8) else 0
  err := .eNone
  ef := false
  pending := []
  response := .silent
  resets := 0

/-- The same core as reset leaves its control registers, with a known State and buffers. -/
def coreR : State := { core0 .uninit 256 with prm := Prm.zero, pv := false }

/-- The patterned State `T` of V20. -/
def patterned : Lanes := grid fun x y => BitVec.ofNat 64 ((x + 5 * y + 1) * 0x0123456789ABCDEF)

/-- `coreR` holding `T`. -/
def coreT : State := { coreR with lanes := patterned }

/-- `core0` holding the pad block of the empty message for L = 256 in `BUF` (V10). -/
def coreEmpty : State :=
  { core0 .absorbing 256 with buf := tabulate 144 fun i => if i = 0 then 0x06 else if i = 135 then 0x80 else 0 }

/-- The next state, if there is one. -/
def next? : Outcome → Option State
  | .next s => some s
  | .fault _ => none
  | .refused _ => none

/-- A field of the next state. -/
def after {α : Type} (o : Outcome) (f : State → α) : Option α := (next? o).map f

/-- `core0` is a sound state in every phase, for every legal length. -/
theorem core0_inv (p : Phase) (L : Nat) (hL : L ∈ legalLengths) : (core0 p L).Inv where
  prm_zero := fun h => absurd h (by simp [core0])
  prm_row := fun _ => ⟨L, hL, rfl⟩
  pv_of_sponge := fun _ => rfl
  ocnt_legal := by
    cases p with
    | done => exact .inr ⟨L, hL, rfl⟩
    | _ => exact .inl rfl
  ocnt_zero := fun h => by rcases h with h | h <;> (change p = _ at h; subst h; rfl)
  ocnt_done := fun h => by
    change p = _ at h
    subst h
    change BitVec.ofNat 32 (L / 8) = BitVec.ofNat 32 (prmOf L).digestBytes
    rw [digestBytes_prmOf hL]
  ef_of_err := fun h => absurd rfl h

theorem coreR_inv : coreR.Inv :=
  ⟨fun _ => rfl, by simp [coreR], by simp [coreR, core0], .inl rfl, fun _ => rfl, by simp [coreR, core0], by simp [coreR, core0]⟩

/-! ### Commands -/

/-- R65, V8. -/
theorem test_setlen : after (exec (.setlen 256) coreR) (fun t => (t.prm, statusWord t)) =
    some (⟨256, 1088, 512, 200⟩, 0x00000004) := by decide

theorem test_setlen_128 : after (exec (.setlen 128) coreR) (fun t => (t.prm, statusWord t)) =
    some (⟨0, 0, 0, 0⟩, 0x00000018) := by decide

/-- R74. -/
theorem test_zero : after (exec .zero coreT) (fun t => (lane t.lanes 3 2, statusWord t)) = some (0, 0) := by decide +kernel

/-- V13: one free byte. -/
theorem test_pad_one_free : after (exec (.pad 71) (core0 .absorbing 512)) (fun t =>
    [bufByte t.buf 70, bufByte t.buf 71, bufByte t.buf 72]) = some [0xAA, 0x86, 0xAA] := by decide +kernel

/-- V12: two free bytes. -/
theorem test_pad_two_free : after (exec (.pad 70) (core0 .uninit 512)) (fun t =>
    [bufByte t.buf 69, bufByte t.buf 70, bufByte t.buf 71, bufByte t.buf 72]) = some [0xAA, 0x06, 0x80, 0xAA] := by
  decide +kernel

/-- R93, V31a: the lanes of the padded empty block. -/
theorem test_absorb : after (exec .absorb { coreEmpty with phase := .uninit }) (fun t =>
    [lane t.lanes 0 0, lane t.lanes 1 3, lane t.lanes 2 3]) = some [0x6, 0x8000000000000000, 0] := by decide +kernel

/-- V43: without parameters. -/
theorem test_absorb_without_params : after (exec .absorb coreR) statusWord = some 0x00000038 := by decide

/-- R96: the byte order of the digest and the bytes left alone (`T`, L = 224: byte 27 is byte 3 of lane (3,0)). -/
theorem test_squeeze : after (exec .squeeze { core0 .uninit 224 with lanes := patterned }) (fun t =>
    ([outByte t.out 0, outByte t.out 27, outByte t.out 28], t.ocnt)) = some ([0xEF, 0x26, 0xAA], 28) := by
  decide +kernel

/-- V20. -/
theorem test_theta : after (exec .theta coreT) (fun t => [lane t.lanes 1 0, lane t.lanes 4 4]) =
    some [0x19343332200F74C7, 0x0EBB3C6EC813A9FD] := by decide +kernel

/-- V20. -/
theorem test_rho : after (exec .rho coreT) (fun t => [lane t.lanes 2 0, lane t.lanes 0 2]) =
    some [0x40DA740DA740DA73, 0x641FDB97530ECA28] := by decide +kernel

/-- V20. -/
theorem test_pi : after (exec .pi coreT) (fun t => [lane t.lanes 0 2, lane t.lanes 1 3]) =
    some [0x02468ACF13579BDE, 0x06D3A06D3A06D39A] := by decide +kernel

/-- V20. -/
theorem test_chi : after (exec .chi coreT) (fun t => [lane t.lanes 0 0, lane t.lanes 4 1]) =
    some [0x000A155705ABADEE, 0x0A44F39BA1062B57] := by decide +kernel

/-- V20. -/
theorem test_iota : after (exec (.iota 5) coreT) (fun t => [lane t.lanes 0 0, lane t.lanes 1 0]) =
    some [0x0123456709ABCDEE, 0x02468ACF13579BDE] := by decide +kernel

/-- V29: an index above 23. -/
theorem test_iota_24 : after (exec (.iota 24) coreR) statusWord = some 0x00000028 := by decide

/-- V29. -/
theorem test_round : after (exec (.round 23) coreT) (fun t => [lane t.lanes 0 0, lane t.lanes 4 3]) =
    some [0xD3DCFFEE6A471E5C, 0x421B469EAD9300E1] := by decide +kernel

/-- V27: the permutation of the zero State. -/
theorem test_permute : after (exec .permute coreR) (fun t => [lane t.lanes 0 0, lane t.lanes 4 4]) =
    some [0xF1258F7940E1DDE7, 0xEAF1FF7B5CECA249] := by decide +kernel

/-- R101. -/
theorem test_spStart : after (exec (.spStart 256) coreT) (fun t =>
    (t.prm, lane t.lanes 2 2, statusWord t)) = some (⟨256, 1088, 512, 200⟩, 0, 0x00000005) := by decide +kernel

theorem test_spStart_255 : after (exec (.spStart 255) coreT) (fun t => (t.lanes.toList == patterned.toList, statusWord t)) =
    some (true, 0x00000018) := by decide +kernel

/-- V31a: the State after the padded empty message. -/
theorem test_spAbsorb : after (step { coreEmpty with pending := [.write 0x300 4 0x121] })
    (fun t => (lane t.lanes 0 0, t.phase)) = some (0x66D71EBFF8C6FFA7, .squeezing) := by decide +kernel

theorem test_spAbsorb_not_last : after (exec (.spAbsorb false) coreEmpty) statusWord = some 0x00000005 := by decide

/-- V42: SP_ABSORB outside ABSORBING. -/
theorem test_spAbsorb_squeezing : after (exec (.spAbsorb false) (core0 .squeezing 256)) statusWord = some 0x0000003E := by
  decide

/-- R107. -/
theorem test_spSqueeze : after (exec .spSqueeze { core0 .squeezing 512 with lanes := patterned }) (fun t =>
    ([outByte t.out 0, outByte t.out 63], t.ocnt, statusWord t)) = some ([0xEF, 0x09], 64, 0x00000007) := by
  decide +kernel

/-- R109. -/
theorem test_spClear : after (exec .spClear (core0 .done 256)) (fun t => (statusWord t, t.ocnt)) =
    some (0x00000004, 32) := by decide

/-- V6: the loop with parameters no command can produce permutes between chunks. -/
theorem test_squeezeLoop_one_chunk : (squeezeOut patterned 72 72).2.length = 72 := by decide +kernel

/-! ### The host window -/

/-- V44: an illegal word. -/
theorem test_illegal_word : after (step { coreR with pending := [.write 0x300 4 0x00010003] }) statusWord =
    some 0x00000048 := by decide

/-- V45: the phase is tested before the operand. -/
theorem test_priority : after (step { core0 .done 256 with pending := [.write 0x300 4 0x00640001] }) statusWord =
    some 0x0000003F := by decide

/-- V50, with the lane (0,0) of V27. -/
theorem test_read_half_lane : after (step { coreR with
      lanes := grid fun x y => if x = 0 ∧ y = 0 then 0xF1258F7940E1DDE7 else 0, pending := [.read 4 4] })
    (fun t => t.response) = some (.value 0xF1258F79) := by decide +kernel

/-- V52: `PRM_RATE` after `SP_START 384`. -/
theorem test_read_register : after (step { core0 .absorbing 384 with pending := [.read 0x30C 4] })
    (fun t => t.response) = some (.value 0x340) := by decide +kernel

/-- V53: "abcd" by one 4-byte write. -/
theorem test_write_buf : after (step { coreR with pending := [.write 0x100 4 0x64636261] }) (fun t =>
    [bufByte t.buf 0, bufByte t.buf 3, bufByte t.buf 4]) = some [0x61, 0x64, 0xAA] := by decide +kernel

/-- V51, V53: refused accesses. -/
theorem test_refusals :
    readAdmitted 0x001 2 = false ∧ readAdmitted 0x0C8 1 = false ∧ readAdmitted 0x300 4 = false ∧
      readAdmitted 0x304 1 = false ∧ readAdmitted 0x400 1 = false ∧ writeAdmitted coreR 0x200 1 = false ∧
      writeAdmitted coreR 0x18C 8 = false ∧ writeAdmitted coreR 0x188 8 = true ∧ writeAdmitted coreR 0 8 = true ∧
      writeAdmitted (core0 .absorbing 256) 0 8 = false := by decide

/-- The fetch of the interface runs the word given, from reset (V8). -/
theorem test_withFetchWord : after (step (State.reset.withFetchWord 32 0x02000001)) (fun t => (t.prm.rate, t.pending)) =
    some (576, []) := by decide

/-! ### The hypotheses of the statements can be met -/

theorem witness_DecodeEncodeAgree : (Instr.setlen 65535).wellFormed = true ∧ (Instr.pad 255).wellFormed = true := by decide

theorem witness_EncodeDecodeAgree : decode 0xFFFF0001 = .ok (.setlen 65535) := by decide

theorem witness_NoWordMatchesTwoRows : ∃ r, opcodeRows[13]? = some r ∧ r.covers 0x00000121 = true := ⟨_, rfl, by decide⟩

theorem witness_StepRunsDecodedCommand :
    ({ coreR with pending := [.write 0x300 4 0x23] } : State).pending = .write 0x300 4 0x23 :: [] ∧
      decode ((0x23 : BitVec 64).setWidth 32) = .ok .spClear := ⟨rfl, by decide⟩

theorem witness_IllegalWordRaisesIll :
    ({ coreR with pending := [.write 0x300 4 0] } : State).pending = .write 0x300 4 0 :: [] ∧
      ∀ i, decode ((0 : BitVec 64).setWidth 32) ≠ .ok i :=
  ⟨rfl, fun i => by rw [show decode ((0 : BitVec 64).setWidth 32) = .error .unlistedOpcode by decide]; simp⟩

/-- One address at the edge of each region, admitted and not. -/
theorem witness_HostReadGivesWindowBytes :
    ({ coreR with pending := [.read 0xC0 8] } : State).pending = .read 0xC0 8 :: [] ∧
      readAdmitted 0xC0 8 = true ∧ readAdmitted 0x188 8 = true ∧ readAdmitted 0x100 8 = true ∧
      readAdmitted 0x238 8 = true ∧ readAdmitted 0x200 1 = true ∧ readAdmitted 0x304 4 = true ∧
      readAdmitted 0x318 4 = true ∧ readAdmitted 0xC8 1 = false := ⟨rfl, by decide⟩

theorem witness_RegisterReadsShowState :
    ((0x318, coreR.ocnt) : Nat × Word) ∈ [(0x304, statusWord coreR), (0x308, coreR.prm.L), (0x30C, coreR.prm.rate),
      (0x310, coreR.prm.cap), (0x314, coreR.prm.ssb), (0x318, coreR.ocnt)] ∧
      ({ coreR with pending := [.read 0x318 4] } : State).pending = .read 0x318 4 :: [] ∧
      ({ coreR with pending := [.read 0x300 4] } : State).pending = .read 0x300 4 :: [] ∧
      0x300 < 0x304 ∧ ({ coreR with pending := [.write 0x304 4 7] } : State).pending = .write 0x304 4 7 :: [] :=
  ⟨by simp, rfl, rfl, by decide, rfl⟩

theorem witness_AccessAdmissionRule :
    readAdmitted 0x300 4 = false ∧ ({ coreR with pending := [.read 0x300 4] } : State).pending = .read 0x300 4 :: [] ∧
      writeAdmitted coreR 0x200 1 = false ∧
      ({ coreR with pending := [.write 0x200 1 7] } : State).pending = .write 0x200 1 7 :: [] :=
  ⟨by decide, rfl, by decide, rfl⟩

theorem witness_AdmittedWriteStoresBytes :
    ({ coreR with pending := [.write 0x18F 1 7] } : State).pending = .write 0x18F 1 7 :: [] ∧
      writeAdmitted coreR 0x18F 1 = true ∧ writeAdmitted coreR 0xC0 8 = true ∧ writeAdmitted coreR 0xC8 1 = false :=
  ⟨rfl, by decide⟩

theorem witness_MixedWidthsSeeTheSameBytes :
    coreR.phase = .uninit ∧
      ({ coreR with pending := [.write (8 * (4 + 5 * 4)) 8 7] } : State).pending = .write (8 * (4 + 5 * 4)) 8 7 :: [] ∧
      ({ coreR with pending := [.read (8 * (4 + 5 * 4) + 4) 4] } : State).pending = .read (8 * (4 + 5 * 4) + 4) 4 :: [] :=
  ⟨rfl, rfl, rfl⟩

theorem witness_ReadsAreIdempotent :
    ∃ t u, step { coreR with pending := [.read 0x304 4, .read 0x304 4] } = .next t ∧ step t = .next u := ⟨_, _, rfl, rfl⟩

theorem witness_ResetMove : ∃ t, step { core0 .done 256 with pending := [.reset] } = .next t ∧ t.phase = .uninit :=
  ⟨_, rfl, rfl⟩

theorem witness_StepKeepsInvariant :
    ∃ t, (core0 .absorbing 224).Inv ∧ step (core0 .absorbing 224) = .next t := ⟨_, core0_inv _ _ (by decide), rfl⟩

/-- A command word that raises an error, by each of the four codes. -/
theorem witness_FailingCommandChangesOnlyErrAndEf :
    after (step { coreR with pending := [.write 0x300 4 0x00640001] }) (fun t => t.err) = some .eCfg ∧
      after (step { coreR with pending := [.write 0x300 4 0x00001815] }) (fun t => t.err) = some .ePre ∧
      after (step { coreR with pending := [.write 0x300 4 0x00000003] }) (fun t => t.err) = some .eSeq ∧
      after (step { coreR with pending := [.write 0x300 4 0x00000000] }) (fun t => t.err) = some .eIll := by decide

/-- The second clause of `EfIsStickyAndUnread`: a move that is neither a command nor a reset. -/
theorem witness_EfIsStickyAndUnread :
    (∀ rest, ({ coreR with pending := [.read 0 1] } : State).pending ≠ .reset :: rest) ∧
      (∀ v rest, ({ coreR with pending := [.read 0 1] } : State).pending ≠ .write 0x300 4 v :: rest) ∧
      ∃ t, step { coreR with pending := [.read 0 1] } = .next t := ⟨by simp, by simp, _, rfl⟩

/-- In a sound state, a command answers, legal and not. -/
theorem witness_sound_command :
    ∃ t u, (core0 .done 256).Inv ∧ exec (.pad 135) (core0 .done 256) = .next t ∧
      exec .theta (core0 .done 256) = .next u ∧ u.err = .eSeq := ⟨_, _, core0_inv _ _ (by decide), rfl, rfl, rfl⟩

/-- Both operand errors, at the first value out of range. -/
theorem witness_operand_errors :
    after (exec (.spStart 225) coreR) (fun t => t.err) = some .eCfg ∧
      after (exec (.pad 136) (core0 .absorbing 256)) (fun t => t.err) = some .ePre ∧
      after (exec (.round 24) coreR) (fun t => t.err) = some .ePre := by decide

/-- The three clauses of `PhaseTransitionTable` about `E_SEQ`. -/
theorem witness_PhaseTransitionTable :
    after (exec (.spStart 256) (core0 .done 256)) (fun t => (t.err, t.phase)) = some (.eSeq, .done) ∧
      after (exec (.spAbsorb true) (core0 .uninit 256)) (fun t => (t.err, t.phase)) = some (.eSeq, .uninit) ∧
      after (exec .spSqueeze (core0 .absorbing 256)) (fun t => (t.err, t.phase)) = some (.eSeq, .absorbing) := by decide

theorem witness_PvRule : coreR.pv = false ∧ ∃ t u, exec (.setlen 224) coreR = .next t ∧ t.pv = true ∧ t.err = .eNone ∧
    exec .squeeze coreR = .next u ∧ u.err = .eSeq := ⟨rfl, _, _, rfl, rfl, rfl, rfl, rfl⟩

theorem witness_OcntRule : ∃ t u, exec (.spStart 512) coreR = .next t ∧ t.err = .eNone ∧
    exec .squeeze (core0 .uninit 512) = .next u ∧ u.err = .eNone := ⟨_, _, rfl, rfl, rfl, rfl⟩

theorem witness_parameter_rows : coreR.phase = .uninit ∧
    ((512, 576, 1024) : Nat × Nat × Nat) ∈
      [(224, 1152, 448), (256, 1088, 512), (384, 832, 768), (512, 576, 1024)] := ⟨rfl, by decide⟩

theorem witness_ParameterIdentities : (core0 .done 512).Inv ∧ (core0 .done 512).pv = true :=
  ⟨core0_inv _ _ (by decide), rfl⟩

/-- `PadCompletesBlock` at the empty message, at two free bytes and at one. -/
theorem witness_PadCompletesBlock : (core0 .uninit 224).Inv ∧ (core0 .uninit 224).pv = true ∧
    (core0 .uninit 224).prm.rateBytes = 144 ∧ 0 < 144 ∧ 142 < 144 - 1 ∧ 143 = 144 - 1 :=
  ⟨core0_inv _ _ (by decide), rfl, by decide, by decide, by decide, by decide⟩

theorem witness_PadRejectsFullBlock : (core0 .uninit 512).pv = true ∧ (core0 .uninit 512).prm.rateBytes ≤ 72 := by decide

/-- Direct mode, a round index in range, and parameters loaded. -/
theorem witness_direct_mode : coreR.phase = .uninit ∧ 23 ≤ 23 ∧ (core0 .uninit 384).Inv ∧
    (core0 .uninit 384).phase = .uninit ∧ (core0 .uninit 384).pv = true :=
  ⟨rfl, by decide, core0_inv _ _ (by decide), rfl, rfl⟩

/-- The three lane-wise hypotheses of `ThetaIsLinear`. -/
theorem witness_ThetaIsLinear : ∀ x y, x < 5 → y < 5 →
    lane zeroLanes x y = lane patterned x y ^^^ lane patterned x y := fun x y hx hy => by
  simp [lane_zeroLanes x y hx hy]

/-- Two States that differ above the rate only. -/
theorem witness_CapacityRegionUntouched :
    let s := core0 .uninit 512
    let s' := { s with lanes := lanesOfBytes fun i => if i < 72 then 0 else 0xFF }
    s.Inv ∧ s' = { s with lanes := s'.lanes } ∧
      (∀ i, i < s.prm.rateBytes → stateByte s'.lanes i = stateByte s.lanes i) ∧
      (∃ t, exec .squeeze s = .next t) ∧ (∃ t, exec .squeeze s' = .next t) ∧ ∃ t, exec .absorb s = .next t :=
  ⟨core0_inv _ _ (by decide), rfl, fun i hi => by
    have h72 : i < 72 := hi
    simp only [core0]
    rw [stateByte_lanesOfBytes _ _ (by omega), if_pos h72]
    unfold stateByte
    rw [laneAt_eq_lane, lane_zeroLanes _ _ (Nat.mod_lt _ (by omega)) (by omega)]
    simp [byteOfLane], ⟨_, rfl⟩, ⟨_, rfl⟩, ⟨_, rfl⟩⟩

/-- `SqueezeOutLoop` at its boundary: one chunk exactly, and one byte more. -/
theorem witness_SqueezeOutLoop : 0 < 72 ∧ 72 ≤ 72 ∧ 72 < 73 := by decide

theorem witness_SpAbsorb : (core0 .absorbing 384).Inv ∧ (core0 .absorbing 384).phase = .absorbing :=
  ⟨core0_inv _ _ (by decide), rfl⟩

theorem witness_SpSqueeze : (core0 .squeezing 384).Inv ∧ (core0 .squeezing 384).phase = .squeezing :=
  ⟨core0_inv _ _ (by decide), rfl⟩

/-- A command that is not SP_CLEAR, in DONE. -/
theorem witness_DoneIsTerminal :
    let s := { core0 .done 256 with pending := [.write 0x300 4 0x22] }
    s.phase = .done ∧ (∀ rest, s.pending ≠ .reset :: rest) ∧
      (∀ v rest, s.pending = .write 0x300 4 v :: rest → v.setWidth 32 ≠ (0x00000023 : Word)) ∧
      ∃ t, step s = .next t :=
  ⟨rfl, by simp, fun v rest h => by injection h with h _; injection h with _ _ h; subst h; decide, _, rfl⟩

/-- A sponge absorbing a block that changes `S` (V31a). -/
theorem witness_SpongeOwnsState :
    let s := { coreEmpty with pending := [.write 0x300 4 0x121] }
    s.Inv ∧ s.phase ≠ .uninit ∧ lane s.lanes 0 0 = 0 ∧
      after (step s) (fun t => (lane t.lanes 0 0, t.phase)) = some (0x66D71EBFF8C6FFA7, .squeezing) :=
  ⟨⟨by simp [coreEmpty, core0], fun _ => ⟨256, by decide, rfl⟩, fun _ => rfl, .inl rfl, fun _ => rfl,
    by simp [coreEmpty, core0], by simp [coreEmpty, core0]⟩, by simp [coreEmpty, core0], by decide +kernel, test_spAbsorb⟩

/-- Two states with the same control registers and other data. -/
theorem witness_ControlFlowIgnoresData :
    coreT.phase = coreR.phase ∧ coreT.pv = coreR.pv ∧ coreT.prm = coreR.prm ∧ coreT.ocnt = coreR.ocnt ∧
      (∃ t, exec .chi coreR = .next t) ∧ ∃ t, exec .chi coreT = .next t := ⟨rfl, rfl, rfl, rfl, ⟨_, rfl⟩, ⟨_, rfl⟩⟩

theorem witness_FailingCommandFailsAgain : after (exec .squeeze coreR) (fun t => t.err) = some .eSeq := by decide

/-- The host's script of R110 for "abc", and the direct one. -/
theorem witness_scripts :
    ({ State.reset with pending := spongeScript 224 [0x61, 0x62, 0x63] } : State).pending =
        spongeScript 224 [0x61, 0x62, 0x63] ++ [] ∧
      ({ State.reset with pending := directScript 224 [0x61, 0x62, 0x63] } : State).pending =
        directScript 224 [0x61, 0x62, 0x63] ++ [] ∧
      State.reset.phase = .uninit ∧ 224 ∈ [224, 256, 384, 512] := ⟨by simp, by simp, rfl, by decide⟩

end Sys2Proof.Tests
end

section
/-! What a command does to `PV`: it keeps it, or it is SETLEN or SP_START, completes, and sets it (10_state.md R20). -/

namespace Sys2Proof.Machine

@[simp] theorem State.failed_pv (s : State) (e : Err) : (s.failed e).pv = s.pv := rfl
@[simp] theorem State.failed_err (s : State) (e : Err) : (s.failed e).err = e := rfl

/-- Raising an error never touches `PV`, so a command whose effect keeps `PV` keeps it on every path. -/
theorem runCommand_pv {α : Type} {legal : Bool} {operand : Except Err α} {effect : α → State → State} {s t : State}
    (hpv : ∀ a, (effect a s).pv = s.pv) (h : runCommand legal operand effect s = .next t) : t.pv = s.pv := by
  rcases runCommand_cases h with ⟨_, rfl⟩ | ⟨e, _, _, rfl⟩ | ⟨a, _, _, rfl⟩
  · rfl
  · rfl
  · exact hpv a

/-- The shape shared by SETLEN and SP_START: the effect loads parameters, so completing and setting `PV` go together. -/
theorem paramsCommand_pv {effect : Prm → State → State} {L : Nat} {s t : State} (hpv : ∀ p, (effect p s).pv = true)
    (h : runCommand s.direct (params L) effect s = .next t) :
    (t.err = .eNone ∧ t.pv = true) ∨ (t.err ≠ .eNone ∧ t.pv = s.pv) := by
  rcases paramsCommand_cases h with ⟨_, rfl⟩ | ⟨_, _, rfl⟩ | ⟨_, _, rfl⟩
  · exact .inr ⟨by simp, rfl⟩
  · exact .inr ⟨by simp, rfl⟩
  · exact .inl ⟨rfl, hpv _⟩

theorem runCommand_err_of_illegal {α : Type} {legal : Bool} {operand : Except Err α} {effect : α → State → State}
    {s t : State} (hl : legal = false) (h : runCommand legal operand effect s = .next t) : t.err = .eSeq := by
  subst hl
  rw [runCommand_illegal] at h
  injection h with h
  rw [← h]

theorem directWithParams_of_pv_false {s : State} (hpv : s.pv = false) : s.directWithParams = false := by
  simp [State.directWithParams, hpv]

/-- Everything a command can do to `PV`: SETLEN or SP_START completes and sets it, or it stays as it was (R20). -/
theorem exec_pv_cases {i : Instr} {s t : State} (h : exec i s = .next t) :
    ((∃ L, i = .setlen L ∨ i = .spStart L) ∧ t.err = .eNone ∧ t.pv = true) ∨
      (((∃ L, i = .setlen L ∨ i = .spStart L) → t.err ≠ .eNone) ∧ t.pv = s.pv) := by
  cases i with
  | setlen L => exact (paramsCommand_pv (fun _ => rfl) h).imp (⟨⟨L, .inl rfl⟩, ·⟩) (.imp_left fun he _ => he)
  | spStart L => exact (paramsCommand_pv (fun _ => rfl) h).imp (⟨⟨L, .inr rfl⟩, ·⟩) (.imp_left fun he _ => he)
  | spSqueeze =>
    refine .inr ⟨by simp, ?_⟩
    rcases execSpSqueeze_cases h with ⟨_, rfl⟩ | ⟨_, rfl⟩
    · rfl
    · rfl
  | spClear =>
    injection h with h
    exact .inr ⟨by simp, by rw [← h]⟩
  | _ => exact .inr ⟨by simp, runCommand_pv (fun _ => rfl) h⟩

/-- The commands that need `RB` or `DB` are not legal without parameters (R20, R115). -/
theorem exec_err_of_pv_false {i : Instr} {s t : State} (hpv : s.pv = false)
    (hi : (∃ n, i = .pad n) ∨ i = .absorb ∨ i = .squeeze) (h : exec i s = .next t) : t.err = .eSeq := by
  rcases hi with ⟨n, rfl⟩ | rfl | rfl
  · exact runCommand_err_of_illegal hpv h
  · exact runCommand_err_of_illegal (directWithParams_of_pv_false hpv) h
  · exact runCommand_err_of_illegal (directWithParams_of_pv_false hpv) h

/-- Settles O27, from the two things a command can do to `PV`. -/
theorem pvRule : Obligations.PvRule := by
  unfold Obligations.PvRule
  refine ⟨rfl, fun i s t h => ?_⟩
  have hseq : s.pv = false → ((∃ n, i = .pad n) ∨ i = .absorb ∨ i = .squeeze) → t.err = .eSeq :=
    fun hpv hi => exec_err_of_pv_false hpv hi h
  rcases exec_pv_cases h with ⟨hi, herr, hset⟩ | ⟨hfail, hkept⟩
  · exact ⟨fun _ _ => hset, fun _ => hset, fun _ _ => ⟨hi, herr⟩, hseq⟩
  · have hstays : s.pv = false → t.pv ≠ true := fun hpv => by simp [hkept, hpv]
    exact ⟨fun hi herr => absurd herr (hfail hi), hkept.trans, fun hpv ht => absurd ht (hstays hpv), hseq⟩

end Sys2Proof.Machine
end

section
/-! The worked words of 30_encoding.md R62: a word is illegal because no row of R55 covers it. -/

namespace Sys2Proof

/-- A word that no row covers is no command, and is rejected under the name of its kind (R56). -/
theorem decode_eq_error_of_not_covered {w : Word} (h : ∀ r ∈ opcodeRows, r.covers w = false) :
    decode w = .error (illegalKind w) := by
  have hnone : opcodeRows.find? (fun r => r.covers w) = none := List.find?_eq_none.mpr fun r hr => by simp [h r hr]
  rw [decode, hnone]

/-- Settles O5: the 23 pairs are evaluated both ways, and none of the five illegal words meets a row of R55. -/
theorem workedEncodings : Obligations.WorkedEncodings := by
  unfold Obligations.WorkedEncodings
  refine ⟨by decide, fun w hw => ⟨illegalKind w, decode_eq_error_of_not_covered ?_⟩⟩
  fin_cases hw <;> decide

end Sys2Proof
end

section
/-! What PAD leaves in `BUF` (41_padding.md R69, R72) and how it rejects a block that is too long (R71). -/

namespace Sys2Proof.Machine

/-! ### The bytes of a padded block (R69) -/

section
variable (p : PadProfile) {RB n i : Nat} (old : Nat → Byte)

theorem padByte_outside (h : i < n ∨ RB ≤ i) : padByte p RB n old i = old i := if_pos h

/-- One free byte: both markers fall together. -/
theorem padByte_both (h : n + 1 = RB) : padByte p RB n old n = p.both := by
  rw [padByte, if_neg (by omega), if_pos (by omega)]

theorem padByte_first (h : n + 1 < RB) : padByte p RB n old n = p.first := by
  rw [padByte, if_neg (by omega), if_neg (by omega), if_pos rfl]

theorem padByte_last (h : n + 1 < RB) : padByte p RB n old (RB - 1) = p.last := by
  rw [padByte, if_neg (by omega), if_neg (by omega), if_neg (by omega), if_pos rfl]

theorem padByte_between (hn : n < i) (hi : i + 1 < RB) : padByte p RB n old i = 0 := by
  rw [padByte, if_neg (by omega), if_neg (by omega), if_neg (by omega), if_neg (by omega)]

/-- R72: the first and the last byte of the pad combine to both markers, however long the pad is. -/
theorem padByte_or_padByte_last (h : n < RB) :
    padByte p RB n old n ||| padByte p RB n old (RB - 1) = p.both := by
  rcases (by omega : n + 1 = RB ∨ n + 1 < RB) with hone | hmore
  · have hlast : RB - 1 = n := by omega
    rw [hlast, padByte_both p old hone, BitVec.or_self]
  · rw [padByte_first p old hmore, padByte_last p old hmore, PadProfile.both]

end

/-- The combined marker of R70. -/
theorem sha3Pad_both : sha3Pad.both = 0x86 := by decide

theorem bufByte_padBuf (RB n : Nat) (s : State) {i : Nat} (hi : i < 144) :
    bufByte (padBuf RB n s).buf i = padByte sha3Pad RB n (bufByte s.buf) i := bufByte_tabulate _ i hi

/-! ### A legal command, by its operand (R58) -/

/-- A legal command whose operand passed has its effect and completes (R58). -/
theorem runCommand_completes {α : Type} {legal : Bool} {operand : Except Err α} {a : α} (effect : α → State → State)
    (s : State) (hl : legal = true) (ho : operand = .ok a) :
    runCommand legal operand effect s = .next { effect a s with err := .eNone } := by
  rw [hl, ho, runCommand_ok]

/-- A legal command whose operand failed its test raises that error (R58, R116). -/
theorem runCommand_raises {α : Type} {legal : Bool} {operand : Except Err α} {e : Err} (effect : α → State → State)
    (s : State) (hl : legal = true) (ho : operand = .error e) :
    runCommand legal operand effect s = .next { s with err := e, ef := true } := by
  rw [hl, ho, runCommand_error]

/-! ### The two answers of PAD with parameters loaded -/

theorem exec_pad_of_lt {s : State} {n : Nat} (hpv : s.pv = true) (hn : n < s.prm.rateBytes) :
    exec (.pad n) s = .next { padBuf s.prm.rateBytes n s with err := .eNone } :=
  runCommand_completes _ s hpv (padLength_of_lt hn)

theorem exec_pad_of_ge {s : State} {n : Nat} (hpv : s.pv = true) (hn : s.prm.rateBytes ≤ n) :
    exec (.pad n) s = .next { s with err := .ePre, ef := true } :=
  runCommand_raises _ s hpv (padLength_of_ge hn)

/-- Settles O31: a sound state's rate fits `BUF`, so every byte of `BUF` is the byte `padByte` gives. -/
theorem padCompletesBlock : Obligations.PadCompletesBlock := by
  unfold Obligations.PadCompletesBlock
  intro s n hinv hpv hn
  obtain ⟨-, hfits, -⟩ := hinv.bounds hpv
  have hbyte : ∀ i, i < 144 → bufByte (padBuf s.prm.rateBytes n s).buf i =
      padByte sha3Pad s.prm.rateBytes n (bufByte s.buf) i := fun _ hi => bufByte_padBuf _ n s hi
  refine ⟨(padBuf s.prm.rateBytes n s).buf, ?_, fun hone => ?_, fun hmore => ⟨?_, ?_, fun i hlo hhi => ?_⟩,
    fun i hi => ?_, exec_pad_of_lt hpv hn⟩
  · rw [hbyte n (by omega), hbyte _ (by omega), padByte_or_padByte_last _ _ hn, sha3Pad_both]
  · rw [hbyte n (by omega), padByte_both _ _ (by omega), sha3Pad_both]
  · rw [hbyte n (by omega), padByte_first _ _ (by omega), sha3Pad]
  · rw [hbyte _ (by omega), padByte_last _ _ (by omega), sha3Pad]
  · rw [hbyte i (by omega), padByte_between _ _ hlo (by omega)]
  · rw [hbyte i (by omega), padByte_outside _ _ (by omega)]

/-- Settles O32: the range test of PAD fails before `BUF` is touched. -/
theorem padRejectsFullBlock : Obligations.PadRejectsFullBlock := by
  unfold Obligations.PadRejectsFullBlock
  exact fun s n hpv hn => exec_pad_of_ge hpv hn

end Sys2Proof.Machine
end

section
/-! The squeeze loop for any digest length and any rate of at least one byte (44_absorb_squeeze.md R95). -/

namespace Sys2Proof.Machine

/-- The fuel is no part of the answer: each chunk uses one unit of it and takes at least one byte (R95). -/
theorem squeezeLoop_eq_of_lt_fuel {RB : Nat} (hRB : 0 < RB) {fuel fuel' need : Nat} (A : Lanes)
    (hf : need < fuel) (hf' : need < fuel') : squeezeLoop fuel A need RB = squeezeLoop fuel' A need RB := by
  induction fuel generalizing fuel' need A with
  | zero => omega
  | succ fuel ih =>
    obtain ⟨k, rfl⟩ := Nat.exists_eq_add_one_of_ne_zero (Nat.ne_zero_of_lt hf')
    rcases Nat.lt_or_ge RB need with hmore | hlast
    · have hrest : squeezeLoop fuel (keccakF A) (need - RB) RB = squeezeLoop k (keccakF A) (need - RB) RB :=
        ih (keccakF A) (by omega) (by omega)
      rw [squeezeLoop_of_gt _ _ _ _ hmore, squeezeLoop_of_gt _ _ _ _ hmore, hrest]
    · rw [squeezeLoop_of_le _ _ _ _ hlast, squeezeLoop_of_le _ _ _ _ hlast]

/-- R95: a digest longer than the rate is one chunk, then a squeeze of the rest from the permuted State. -/
theorem squeezeOut_of_gt (A : Lanes) {DB RB : Nat} (hRB : 0 < RB) (h : RB < DB) :
    squeezeOut A DB RB =
      ((squeezeOut (keccakF A) (DB - RB) RB).1,
        (List.range RB).map (stateByte A) ++ (squeezeOut (keccakF A) (DB - RB) RB).2) := by
  have hrest : squeezeLoop DB (keccakF A) (DB - RB) RB = squeezeOut (keccakF A) (DB - RB) RB :=
    squeezeLoop_eq_of_lt_fuel hRB (keccakF A) (by omega) (by omega)
  rw [← hrest]
  exact squeezeLoop_of_gt DB A DB RB h

/-- R95: the output is exactly as long as was asked for. -/
theorem squeezeOut_length (A : Lanes) (DB : Nat) {RB : Nat} (hRB : 0 < RB) : (squeezeOut A DB RB).2.length = DB := by
  induction DB using Nat.strongRecOn generalizing A with
  | ind DB ih =>
    rcases Nat.lt_or_ge RB DB with hmore | hlast
    · have hrest : (squeezeOut (keccakF A) (DB - RB) RB).2.length = DB - RB := ih (DB - RB) (by omega) (keccakF A)
      rw [squeezeOut_of_gt A hRB hmore, List.length_append, List.length_map, List.length_range, hrest]
      omega
    · rw [squeezeOut_of_le _ _ _ hlast, List.length_map, List.length_range]

/-- Settles O48: the last chunk, a chunk with more to come, and the length, by induction on the bytes still wanted. -/
theorem squeezeOutLoop : Obligations.SqueezeOutLoop := by
  unfold Obligations.SqueezeOutLoop
  exact fun A DB RB hRB => ⟨squeezeOut_of_le A DB RB, squeezeOut_of_gt A hRB, squeezeOut_length A DB hRB⟩

end Sys2Proof.Machine
end

section
/-! Moves of the host in a row, the commands of a direct-mode digest among them, and the digest they reach
(45_sponge_fsm.md R110, last sentence). -/

namespace Sys2Proof

/-! ### Words of commands (R55) -/

/-- The decoder takes the first row that covers the word, so it is enough that no earlier row has the word's opcode. -/
theorem decode_eq_ok_of_first_cover {w : Word} {i : Instr} (earlier : List OpcodeRow) {later : List OpcodeRow}
    {r : OpcodeRow} (hrows : opcodeRows = earlier ++ r :: later)
    (hearlier : ∀ q ∈ earlier, opField w &&& opField q.mask ≠ opField q.pattern) (hr : r.covers w = true)
    (hi : r.build w = i) : decode w = .ok i := by
  have hnone : earlier.find? (fun q => q.covers w) = none :=
    List.find?_eq_none.mpr fun q hq hc => hearlier q hq ((covers_iff_fields q w).mp hc).1
  have hfirst : opcodeRows.find? (fun q => q.covers w) = some r := by
    simp only [hrows, List.find?_append, hnone, Option.none_or, List.find?_cons, hr]
  rw [decode, hfirst, ← hi]

theorem decode_encode_setlen {L : Nat} (hL : L < 65536) : decode (encode (.setlen L)) = .ok (.setlen L) := by
  have hcover :
      (⟨0x00000001, 0x0000FFFF, fun w => .setlen (bField w)⟩ : OpcodeRow).covers (encode (.setlen L)) = true := by
    rw [covers_iff_fields, encode, opField_commandWord, aField_commandWord, bField_commandWord]
    exact ⟨by decide, by decide, Nat.and_zero _⟩
  have hfield : bField (encode (.setlen L)) = L := by rw [encode, bField_commandWord, Nat.mod_eq_of_lt hL]
  exact decode_eq_ok_of_first_cover [] rfl (by simp) hcover (congrArg Instr.setlen hfield)

theorem decode_encode_pad {n : Nat} (hn : n < 256) : decode (encode (.pad n)) = .ok (.pad n) := by
  have hcover : (⟨0x00000003, 0xFFFF00FF, fun w => .pad (aField w)⟩ : OpcodeRow).covers (encode (.pad n)) = true := by
    rw [covers_iff_fields, encode, opField_commandWord, aField_commandWord, bField_commandWord]
    exact ⟨by decide, Nat.and_zero _, by decide⟩
  have hearlier : ∀ q ∈ opcodeRows.take 2, opField (encode (.pad n)) &&& opField q.mask ≠ opField q.pattern := by
    rw [encode, opField_commandWord]
    decide
  have hfield : aField (encode (.pad n)) = n := by rw [encode, aField_commandWord, Nat.mod_eq_of_lt hn]
  exact decode_eq_ok_of_first_cover (opcodeRows.take 2) rfl hearlier hcover (congrArg Instr.pad hfield)

namespace Machine

/-! ### Runs of host moves (log 1) -/

theorem run_succ {n : Nat} {s t : State} (h : step s = .next t) :
    Host.Core.run core (n + 1) s = Host.Core.run core n t := by
  have hcore : core.step s = .next t := h
  simp only [Host.Core.run, hcore]

/-- A run that follows another goes on from where that one ended. -/
theorem run_add {m n : Nat} {s t : State} (h : Host.Core.run core m s = .next t) :
    Host.Core.run core (m + n) s = Host.Core.run core n t := by
  induction m generalizing s with
  | zero =>
    injection h with h
    rw [h, Nat.zero_add]
  | succ m ih =>
    cases hs : step s with
    | next u =>
      rw [run_succ hs] at h
      rw [Nat.succ_add, run_succ hs, ih h]
    | fault f => exact nomatch f
    | refused q =>
      have hcore : core.step s = .refused q := hs
      simp only [Host.Core.run, hcore] at h
      cases h

/-- The host moves `ms` take the core from `s` to `t`, whatever moves come after them. The list of moves and the latest
answer (log 1, log 2) are left out of `s` and `t`. -/
def Leads (ms : List HostMove) (s t : State) : Prop :=
  ∀ rest r, ∃ r', Host.Core.run core ms.length (s.answer (ms ++ rest) r) = .next (t.answer rest r')

theorem Leads.nil (s : State) : Leads [] s s := fun _ r => ⟨r, rfl⟩

theorem Leads.append {ms ms' : List HostMove} {s t u : State} (h : Leads ms s t) (h' : Leads ms' t u) :
    Leads (ms ++ ms') s u := fun rest r => by
  obtain ⟨r₁, h₁⟩ := h (ms' ++ rest) r
  obtain ⟨r₂, h₂⟩ := h' rest r₁
  refine ⟨r₂, ?_⟩
  rw [List.length_append, List.append_assoc, run_add h₁, h₂]

/-- One move is one step. -/
theorem Leads.move {m : HostMove} {s t : State}
    (h : ∀ rest r, step (s.answer (m :: rest) r) = .next (t.answer rest .accepted)) : Leads [m] s t := fun rest r => by
  exact ⟨.accepted, run_succ (h rest r)⟩

/-- The moves that were pending have been taken, and those behind them are left. -/
theorem Leads.run {ms rest : List HostMove} {s t : State} (h : Leads ms s t) (hp : s.pending = ms ++ rest) :
    ∃ r, Host.Core.run core ms.length s = .next (t.answer rest r) := by
  obtain ⟨r, hr⟩ := h rest s.response
  rw [← hp] at hr
  exact ⟨r, hr⟩

/-- Issuing a command runs it (R51, R58). -/
theorem Leads.issue {i : Instr} {s t : State} (hd : decode (encode i) = .ok i)
    (h : ∀ rest, exec i (s.answer rest .accepted) = .next (t.answer rest .accepted)) : Leads [Machine.issue i] s t :=
  .move fun rest r => by
    have hword : ((encode i).setWidth 64).setWidth 32 = encode i := by simp
    exact (step_command rfl (by rw [hword]; exact hd)).trans (h rest)

/-! ### Filling `BUF` (R60, R103) -/

/-- `BUF` after `bytes` were written to its front. -/
def bufWith (B : Vector Byte 144) (bytes : List Byte) : Vector Byte 144 :=
  tabulate 144 fun i => bytes.getD i (bufByte B i)

theorem bufByte_bufWith (B : Vector Byte 144) (bytes : List Byte) {i : Nat} (hi : i < 144) :
    bufByte (bufWith B bytes) i = bytes.getD i (bufByte B i) := bufByte_tabulate _ i hi

theorem bufWith_nil (B : Vector Byte 144) : bufWith B [] = B := eq_tabulate B 0

/-- One more byte behind those already written. -/
theorem bufWith_concat (B : Vector Byte 144) (bytes : List Byte) (b : Byte) :
    bufWith B (bytes ++ [b]) =
      tabulate 144 (overlay (bufByte (bufWith B bytes)) bytes.length 1 (b.setWidth 64)) := by
  refine tabulate_congr fun i hi => ?_
  rcases Nat.lt_trichotomy i bytes.length with hlt | rfl | hgt
  · rw [overlay_outside _ _ _ _ _ (.inl hlt), bufByte_bufWith _ _ hi, List.getD_append _ _ _ _ hlt]
  · have hbyte : byteOfLane (b.setWidth 64) 0 = b := BitVec.eq_of_getLsbD_eq fun i hi => by
      rw [byteOfLane_bit _ _ _ hi]
      simp [show i < 64 by omega]
    rw [← Nat.add_zero bytes.length, overlay_inside _ _ _ _ _ Nat.one_pos, hbyte]
    simp
  · rw [overlay_outside _ _ _ _ _ (.inr hgt), bufByte_bufWith _ _ hi, List.getD_eq_default _ _ (by simpa using hgt),
      List.getD_eq_default _ _ hgt.le]

/-- A byte written to `BUF` (R34, R37). -/
theorem leads_write_buf (s : State) {k : Nat} (hk : k < 144) (v : BitVec 64) :
    Leads [.write (bufBase + k) 1 v] s { s with buf := tabulate 144 (overlay (bufByte s.buf) k 1 v) } :=
  .move fun rest r => by
    have hregion : regionOf (bufBase + k) = .buf := regionOf_buf.mpr (by unfold bufBase; omega)
    have hshape : wellShaped (bufBase + k) 1 = true := wellShaped_iff.mpr (by unfold bufBase; omega)
    have hadmitted : writeAdmitted (s.answer (.write (bufBase + k) 1 v :: rest) r) (bufBase + k) 1 = true := by
      rw [writeAdmitted, hshape, hregion]
      rfl
    have hstep := step_write_data rfl hadmitted (by simp [hregion])
    rw [storeBytes, hregion, Nat.add_sub_cancel_left] at hstep
    exact hstep

/-- `WRB` to `BUF`, byte by byte in ascending order (R60). -/
theorem leads_wrb (s : State) (bytes : List Byte) (hlen : bytes.length ≤ 144) :
    Leads (wrb bufBase bytes) s { s with buf := bufWith s.buf bytes } := by
  induction bytes using List.reverseRecOn with
  | nil => rw [bufWith_nil]; exact .nil s
  | append_singleton bytes b ih =>
    rw [List.length_append, List.length_singleton] at hlen
    rw [wrb, List.mapIdx_concat, bufWith_concat]
    exact (ih (by omega)).append (leads_write_buf _ (by omega) _)

/-! ### The commands of the sequence in direct mode -/

/-- The legal digest lengths lie between 224 and 512 bits (R63). -/
theorem legalLength_bounds {L : Nat} (hL : L ∈ legalLengths) : 224 ≤ L ∧ L ≤ 512 := by
  simp only [legalLengths, List.mem_cons, List.not_mem_nil, or_false] at hL
  omega

/-- The core between two commands of a direct-mode digest of length `L` begun in `s`: the parameters are loaded, the State
is `A`, the block buffer `B`, and the latest command completed. -/
def hashing (L : Nat) (s : State) (A : Lanes) (B : Vector Byte 144) : State :=
  { s with prm := prmOf L, pv := true, lanes := A, buf := B, err := .eNone }

/-- `PAD n` (R69). -/
theorem leads_pad {L RB n : Nat} (s : State) (A : Lanes) (B : Vector Byte 144) (hrate : (prmOf L).rateBytes = RB)
    (hn : n < RB) (hword : n < 256) :
    Leads [issue (.pad n)] (hashing L s A B) (hashing L s A (padBuf RB n (hashing L s A B)).buf) := by
  subst hrate
  exact .issue (decode_encode_pad hword) fun _ => exec_pad_of_lt rfl hn

section
variable {L : Nat} {s : State} (hphase : s.phase = .uninit) (A : Lanes) (B : Vector Byte 144)
include hphase

/-- `SETLEN L; ZERO` (R65, R74). -/
theorem leads_setlen_zero (hL : L ∈ legalLengths) :
    Leads [issue (.setlen L), issue .zero] s (hashing L s zeroLanes s.buf) := by
  obtain ⟨-, hmax⟩ := legalLength_bounds hL
  have hsetlen : Leads [issue (.setlen L)] s (hashing L s s.lanes s.buf) :=
    .issue (decode_encode_setlen (by omega)) fun _ =>
      runCommand_completes _ _ (direct_iff.mpr hphase) (params_of_legal hL)
  have hzero : Leads [issue .zero] (hashing L s s.lanes s.buf) (hashing L s zeroLanes s.buf) :=
    .issue (by decide) fun _ => runCommand_completes _ _ (direct_iff.mpr hphase) rfl
  exact hsetlen.append hzero

/-- `ABSORB; PERMUTE` (R89, R93), with the block `blk` in `BUF`. -/
theorem leads_absorb_permute {RB : Nat} {blk : Nat → Byte} (hrate : (prmOf L).rateBytes = RB)
    (hblk : ∀ i, i < RB → bufByte B i = blk i) :
    Leads [issue .absorb, issue .permute] (hashing L s A B) (hashing L s (keccakF (xorBlock A blk RB)) B) := by
  have habsorb : Leads [issue .absorb] (hashing L s A B)
      (hashing L s (xorBlock A (bufByte B) (prmOf L).rateBytes) B) :=
    .issue (by decide) fun _ => runCommand_completes _ _ (directWithParams_iff.mpr ⟨hphase, rfl⟩) rfl
  rw [hrate, xorBlock_congr A RB hblk] at habsorb
  exact habsorb.append (.issue (by decide) fun _ => runCommand_completes _ _ (direct_iff.mpr hphase) rfl)

/-- `SQUEEZE` (R96). -/
theorem leads_squeeze :
    Leads [issue .squeeze] (hashing L s A B) { squeezeToOut (hashing L s A B) with err := .eNone } :=
  .issue (by decide) fun _ => runCommand_completes _ _ (directWithParams_iff.mpr ⟨hphase, rfl⟩) rfl

end

/-! ### The blocks of the message (R103, R110) -/

/-- The State after the first `j` blocks of `M`. -/
def absorbedBlocks (RB : Nat) (M : List Byte) (j : Nat) : Lanes :=
  (List.range j).foldl (fun A k => keccakF (xorBlock A (paddedBlock RB M k) RB)) zeroLanes

theorem absorbedBlocks_succ (RB : Nat) (M : List Byte) (j : Nat) :
    absorbedBlocks RB M (j + 1) = keccakF (xorBlock (absorbedBlocks RB M j) (paddedBlock RB M j) RB) := by
  rw [absorbedBlocks, List.range_succ, List.foldl_append]
  rfl

theorem spongeState_eq_absorbedBlocks (RB : Nat) (M : List Byte) :
    spongeState RB M = absorbedBlocks RB M (M.length / RB + 1) := rfl

/-- PAD leaves the message bytes in front of it, and looks at no other byte of the block (R69). -/
theorem padByte_congr (p : PadProfile) {RB n i : Nat} {old old' : Nat → Byte} (hi : i < RB)
    (h : ∀ k, k < n → old k = old' k) : padByte p RB n old i = padByte p RB n old' i := by
  by_cases hin : i < n
  · rw [padByte_outside p old (.inl hin), padByte_outside p old' (.inl hin), h i hin]
  · have hpad : ¬ (i < n ∨ RB ≤ i) := by omega
    simp only [padByte, if_neg hpad]

/-- A full block written to `BUF` is the padded message's block (R103). -/
theorem bufByte_fullBlock (B : Vector Byte 144) {RB : Nat} (M : List Byte) {j i : Nat} (hRB : RB ≤ 144)
    (hj : j < M.length / RB) (hi : i < RB) :
    bufByte (bufWith B ((M.drop (j * RB)).take RB)) i = paddedBlock RB M j i := by
  have hblocks : (j + 1) * RB ≤ M.length := (Nat.mul_le_mul_right RB hj).trans (Nat.div_mul_le_self _ _)
  have hin : j * RB + i < M.length := by rw [Nat.succ_mul] at hblocks; omega
  rw [bufByte_bufWith _ _ (by omega), paddedBlock, if_pos hj]
  simp [List.getD, hi, hin]

/-- The rest of the message written to `BUF` and padded is the padded message's last block (R103). -/
theorem bufByte_lastBlock (B : Vector Byte 144) {RB : Nat} (M : List Byte) (s : State) (hRB : RB ≤ 144)
    (hbuf : s.buf = bufWith B (M.drop (M.length / RB * RB))) {i : Nat} (hi : i < RB) :
    bufByte (padBuf RB (M.length % RB) s).buf i = paddedBlock RB M (M.length / RB) i := by
  rw [bufByte_padBuf _ _ _ (by omega), paddedBlock, if_neg (Nat.lt_irrefl _)]
  refine padByte_congr sha3Pad hi fun k hk => ?_
  have hmod : M.length % RB < RB := Nat.mod_lt _ (by omega)
  have hin : M.length / RB * RB + k < M.length := by
    have hsplit := Nat.div_add_mod' M.length RB
    omega
  rw [hbuf, bufByte_bufWith _ _ (by omega)]
  simp [List.getD, hin]

/-- The moves that absorb the full blocks `0 .. q-1` of `M` in direct mode (R110). -/
def directBlockMoves (RB : Nat) (M : List Byte) (q : Nat) : List HostMove :=
  (List.range q).flatMap fun j => wrb bufBase ((M.drop (j * RB)).take RB) ++ [issue .absorb, issue .permute]

theorem directBlockMoves_succ (RB : Nat) (M : List Byte) (j : Nat) :
    directBlockMoves RB M (j + 1) = directBlockMoves RB M j ++
      (wrb bufBase ((M.drop (j * RB)).take RB) ++ [issue .absorb, issue .permute]) := by
  simp [directBlockMoves, List.range_succ]

/-- The script in its parts: parameters and zero State, the full blocks, the last block, the digest. -/
theorem directScript_eq (L : Nat) (M : List Byte) {RB : Nat} (hRB : RB = (1600 - 2 * L) / 8) :
    directScript L M = [issue (.setlen L), issue .zero] ++ (directBlockMoves RB M (M.length / RB) ++
      ((wrb bufBase (M.drop (M.length / RB * RB)) ++ ([issue (.pad (M.length % RB))] ++
        [issue .absorb, issue .permute])) ++ [issue .squeeze])) := by
  subst hRB
  simp [directScript, directBlockMoves]

section
variable {L RB : Nat} {s : State} (hphase : s.phase = .uninit) (hrate : (prmOf L).rateBytes = RB) (hRB : RB ≤ 144)
  (M : List Byte)
include hphase hrate hRB

/-- By induction on the blocks: the State is the sponge's after each of them. -/
theorem leads_directBlockMoves {j : Nat} (hj : j ≤ M.length / RB) :
    ∃ B, Leads (directBlockMoves RB M j) (hashing L s zeroLanes s.buf) (hashing L s (absorbedBlocks RB M j) B) := by
  induction j with
  | zero => exact ⟨s.buf, .nil _⟩
  | succ j ih =>
    obtain ⟨B, hblocks⟩ := ih (by omega)
    have hfill := leads_wrb (hashing L s (absorbedBlocks RB M j) B) ((M.drop (j * RB)).take RB)
      ((List.length_take_le _ _).trans hRB)
    have habsorb := leads_absorb_permute hphase (absorbedBlocks RB M j) _ hrate
      fun i hi => bufByte_fullBlock B M hRB hj hi
    rw [directBlockMoves_succ, absorbedBlocks_succ]
    exact ⟨_, hblocks.append (hfill.append habsorb)⟩

/-- The last block, padded by the core (R69), completes the sponge's State. -/
theorem leads_lastBlock (hpos : 0 < RB) (B : Vector Byte 144) :
    ∃ B', Leads (wrb bufBase (M.drop (M.length / RB * RB)) ++ ([issue (.pad (M.length % RB))] ++
        [issue .absorb, issue .permute]))
      (hashing L s (absorbedBlocks RB M (M.length / RB)) B) (hashing L s (spongeState RB M) B') := by
  have hmod : M.length % RB < RB := Nat.mod_lt _ hpos
  have hrest : (M.drop (M.length / RB * RB)).length = M.length % RB := by
    rw [List.length_drop, Nat.mod_eq_sub_div_mul]
  rw [spongeState_eq_absorbedBlocks, absorbedBlocks_succ]
  generalize absorbedBlocks RB M (M.length / RB) = A
  have hfill := leads_wrb (hashing L s A B) (M.drop (M.length / RB * RB)) (by omega)
  have hpad := leads_pad s A (bufWith B (M.drop (M.length / RB * RB))) hrate hmod (by omega)
  have habsorb := leads_absorb_permute hphase A _ hrate
    fun i hi => bufByte_lastBlock B M (hashing L s A (bufWith B _)) hRB rfl hi
  exact ⟨_, hfill.append (hpad.append habsorb)⟩

end

/-- The whole sequence of R110 in direct mode: its `SQUEEZE` finds the sponge's final State in `S`. -/
theorem leads_directScript {L : Nat} {s : State} (hL : L ∈ legalLengths) (hphase : s.phase = .uninit) (M : List Byte) :
    ∃ B, Leads (directScript L M) s
      { squeezeToOut (hashing L s (spongeState ((1600 - 2 * L) / 8) M) B) with err := .eNone } := by
  have hrate := rateBytes_prmOf hL
  obtain ⟨hmin, hmax⟩ := legalLength_bounds hL
  obtain ⟨B, hblocks⟩ := leads_directBlockMoves hphase hrate (by omega) M le_rfl
  obtain ⟨B', hlast⟩ := leads_lastBlock hphase hrate (by omega) M (by omega) B
  rw [directScript_eq L M rfl]
  exact ⟨B', (leads_setlen_zero hphase hL).append (hblocks.append (hlast.append (leads_squeeze hphase _ _)))⟩

/-- `OUT` after SQUEEZE: the digest in front, the old bytes behind (R96, R110). -/
theorem outByte_squeeze_digest {L : Nat} (s : State) (hL : L ∈ legalLengths) (M : List Byte) (B : Vector Byte 144)
    {i : Nat} (hi : i < 64) :
    outByte (squeezeToOut (hashing L s (spongeState ((1600 - 2 * L) / 8) M) B)).out i =
      if i < L / 8 then (spongeDigest L M).getD i 0 else outByte s.out i := by
  obtain ⟨-, hmax⟩ := legalLength_bounds hL
  have hout : (squeezeToOut (hashing L s (spongeState ((1600 - 2 * L) / 8) M) B)).out =
      digestInto s.out (L / 8) (squeezeOut (spongeState ((1600 - 2 * L) / 8) M) (L / 8) ((1600 - 2 * L) / 8)).2 := by
    rw [← digestBytes_prmOf hL, ← rateBytes_prmOf hL]
    rfl
  rw [hout, outByte_squeeze_of_le _ _ _ _ _ (by omega) hi]
  split
  · next h => simp [spongeDigest, List.getD, h]
  · rfl

/-- Settles O57: the run ends in the State of the sponge by induction on the message's blocks, and SQUEEZE copies the
digest from it. -/
theorem directScriptComputesDigest : Obligations.DirectScriptComputesDigest := by
  unfold Obligations.DirectScriptComputesDigest
  intro L M s rest hL hphase hp
  obtain ⟨B, hscript⟩ := leads_directScript hL hphase M
  obtain ⟨r, hrun⟩ := hscript.run hp
  obtain ⟨-, hmax⟩ := legalLength_bounds hL
  refine ⟨_, hrun, hphase, rfl, rfl, congrArg (BitVec.ofNat 32) (digestBytes_prmOf hL), fun i hi => ?_,
    fun i hlo hhi => ?_, rfl⟩
  · exact (outByte_squeeze_digest s hL M B (by omega)).trans (if_pos hi)
  · exact (outByte_squeeze_digest s hL M B hhi).trans (if_neg (by omega))

end Machine
end Sys2Proof
end

section
/-! Where an operand error, `E_CFG` or `E_PRE`, comes from: a legal command whose operand fails its range test
(60_exceptions.md R113, R114, under the order of R118). -/

namespace Sys2Proof.Machine

/-! ### Which error each range test raises -/

theorem params_eq_error_iff {L : Nat} {e : Err} : params L = .error e ↔ L ∉ legalLengths ∧ e = .eCfg := by
  by_cases hL : L ∈ legalLengths
  · simp [params_of_legal hL, hL]
  · simp [params_of_illegal hL, hL, eq_comm]

theorem padLength_eq_error_iff {p : Prm} {n : Nat} {e : Err} :
    padLength p n = .error e ↔ p.rateBytes ≤ n ∧ e = .ePre := by
  rcases Nat.lt_or_ge n p.rateBytes with hn | hn
  · simp [padLength_of_lt hn, hn]
  · simp [padLength_of_ge hn, hn, eq_comm]

theorem roundIndex_eq_error_iff {r : Nat} {e : Err} : roundIndex r = .error e ↔ 23 < r ∧ e = .ePre := by
  rcases Nat.lt_or_ge r 24 with hr | hr
  · simp [roundIndex_of_lt hr, Nat.le_of_lt_succ hr]
  · simp [roundIndex_of_ge hr, Nat.lt_of_succ_le hr, eq_comm]

/-! ### Which error a command raises -/

section
variable {e : Err} {s t : State}

/-- An error other than `E_SEQ` is the operand's, and it is raised only after the test of `PHASE` and `PV` (R118). -/
theorem runCommand_err_iff {α : Type} {legal : Bool} {operand : Except Err α} {effect : α → State → State}
    (hseq : e ≠ .eSeq) (hnone : e ≠ .eNone) (h : runCommand legal operand effect s = .next t) :
    t.err = e ↔ legal = true ∧ operand = .error e := by
  rcases runCommand_cases h with ⟨hl, rfl⟩ | ⟨e', hl, ho, rfl⟩ | ⟨a, hl, ho, rfl⟩
  · simp [hl, hseq.symm]
  · simp [hl, ho]
  · simp [ho, hnone.symm]

/-- A command without a tested operand raises `E_SEQ` or nothing. -/
theorem plainCommand_err_ne {legal : Bool} {effect : Unit → State → State} (hseq : e ≠ .eSeq) (hnone : e ≠ .eNone)
    (h : runCommand legal noOperand effect s = .next t) : t.err ≠ e :=
  fun he => noOperand_ne_error e ((runCommand_err_iff hseq hnone h).mp he).2

/-- Every source of an error other than `E_SEQ`: the digest length of SETLEN and SP_START, the length of PAD, the round
index of IOTA and ROUND, each in a state where its command is legal (R113, R114, R118). -/
theorem exec_err_iff {i : Instr} (hseq : e ≠ .eSeq) (hnone : e ≠ .eNone) (h : exec i s = .next t) :
    t.err = e ↔
      (∃ L, (i = .setlen L ∨ i = .spStart L) ∧ s.phase = .uninit ∧ L ∉ legalLengths ∧ e = .eCfg) ∨
      (∃ n, i = .pad n ∧ s.pv = true ∧ s.prm.rateBytes ≤ n ∧ e = .ePre) ∨
      (∃ r, (i = .iota r ∨ i = .round r) ∧ s.phase = .uninit ∧ 23 < r ∧ e = .ePre) := by
  cases i with
  | setlen L | spStart L =>
    rw [runCommand_err_iff hseq hnone h, direct_iff, params_eq_error_iff]
    simp
  | pad n =>
    rw [runCommand_err_iff hseq hnone h, padLength_eq_error_iff]
    simp
  | iota r | round r =>
    rw [runCommand_err_iff hseq hnone h, direct_iff, roundIndex_eq_error_iff]
    simp
  -- SP_SQUEEZE and SP_CLEAR update a field in place: unification finds their effect only in the unfolded body.
  | spSqueeze =>
    unfold exec execSpSqueeze at h
    simpa using plainCommand_err_ne hseq hnone h
  | spClear =>
    unfold exec execSpClear at h
    simpa using plainCommand_err_ne hseq hnone h
  | _ => simpa using plainCommand_err_ne hseq hnone h

end

/-- Settles O22: of the sources of an operand error, the digest length alone gives `E_CFG`. -/
theorem cfgErrorExactly : Obligations.CfgErrorExactly := by
  unfold Obligations.CfgErrorExactly
  intro i s t h
  simpa [legalLengths] using exec_err_iff (e := .eCfg) (by decide) (by decide) h

/-- Settles O23: of the sources of an operand error, the length of PAD and the round index give `E_PRE`. -/
theorem preErrorExactly : Obligations.PreErrorExactly := by
  unfold Obligations.PreErrorExactly
  intro i s t h
  simpa [Prm.rateBytes] using exec_err_iff (e := .ePre) (by decide) (by decide) h

end Sys2Proof.Machine
end

section
/-! Noninterference: a command's legality, operand test and effect on the control registers read `PHASE`, `PV` and `PRM`
alone (70_reset_and_hazards.md R131). -/

namespace Sys2Proof.Machine

/-- Two states with the same `PHASE`, `PV` and `PRM`, and the same `OCNT` in case `ocntAgrees`; of their `S`, `BUF`, `OUT`
nothing is said. -/
structure ControlAgrees (ocntAgrees : Prop) (s s' : State) : Prop where
  phase : s'.phase = s.phase
  pv : s'.pv = s.pv
  prm : s'.prm = s.prm
  ocnt : ocntAgrees → s'.ocnt = s.ocnt

namespace ControlAgrees

variable {p : Prop} {s s' : State} (h : ControlAgrees p s s')
include h

/-! ### The tests of `PHASE` and `PV` (R123) -/

theorem direct : s'.direct = s.direct := by rw [State.direct, State.direct, h.phase]

theorem directWithParams : s'.directWithParams = s.directWithParams := by
  rw [State.directWithParams, State.directWithParams, h.phase, h.pv]

theorem phase_beq (q : Phase) : (s'.phase == q) = (s.phase == q) := by rw [h.phase]

/-! ### The effects of the commands -/

theorem failed (e : Err) : ControlAgrees p (s.failed e) (s'.failed e) := ⟨h.phase, h.pv, h.prm, h.ocnt⟩

theorem completed : ControlAgrees p { s with err := .eNone } { s' with err := .eNone } :=
  ⟨h.phase, h.pv, h.prm, h.ocnt⟩

theorem mapLanes (f : Lanes → Lanes) : ControlAgrees p (mapLanes f s) (mapLanes f s') :=
  ⟨h.phase, h.pv, h.prm, h.ocnt⟩

theorem padBuf (RB RB' n : Nat) : ControlAgrees p (padBuf RB n s) (padBuf RB' n s') :=
  ⟨h.phase, h.pv, h.prm, h.ocnt⟩

theorem absorbBuf : ControlAgrees p (absorbBuf s) (absorbBuf s') := ⟨h.phase, h.pv, h.prm, h.ocnt⟩

theorem loadParams (q : Prm) : ControlAgrees p (s.loadParams q) (s'.loadParams q) := ⟨h.phase, rfl, rfl, h.ocnt⟩

omit h in
/-- SP_START sets every control register itself (R101). -/
theorem startSponge (q : Prm) : ControlAgrees p (startSponge q s) (startSponge q s') := ⟨rfl, rfl, rfl, fun _ => rfl⟩

theorem absorbAndPermute (last : Bool) : ControlAgrees p (absorbAndPermute last s) (absorbAndPermute last s') :=
  ⟨by simp [h.phase], h.pv, h.prm, h.ocnt⟩

/-- The new `OCNT` is `DB`, which `PRM` gives (R22). -/
theorem squeezeToOut : ControlAgrees p (squeezeToOut s) (squeezeToOut s') :=
  ⟨h.phase, h.pv, h.prm, fun _ => by simp [h.prm]⟩

theorem setPhase (q : Phase) : ControlAgrees p { s with phase := q } { s' with phase := q } :=
  ⟨rfl, h.pv, h.prm, h.ocnt⟩

/-! ### The commands -/

/-- The shape shared by all commands: the same test, the same operand and effects that agree on the control registers
give the same error and control registers that agree (R58, R118). -/
theorem runCommand {α : Type} {legal legal' : Bool} {operand operand' : Except Err α} {effect effect' : α → State → State}
    {t t' : State} (ht : runCommand legal operand effect s = .next t)
    (ht' : runCommand legal' operand' effect' s' = .next t') (hlegal : legal' = legal) (hoperand : operand' = operand)
    (heffect : ∀ a, ControlAgrees p (effect a s) (effect' a s')) : t'.err = t.err ∧ ControlAgrees p t t' := by
  subst hlegal hoperand
  cases legal' with
  | false =>
    cases ht; cases ht'
    exact ⟨rfl, h.failed .eSeq⟩
  | true =>
    cases operand' with
    | error e =>
      cases ht; cases ht'
      exact ⟨rfl, h.failed e⟩
    | ok a =>
      cases ht; cases ht'
      exact ⟨rfl, (heffect a).completed⟩

/-- R131, command by command: the test reads `PHASE` and `PV`, the operand's range `PRM` at most, and the effect computes
no control register from data. -/
theorem exec {i : Instr} {t t' : State} (ht : exec i s = .next t) (ht' : exec i s' = .next t') :
    t'.err = t.err ∧ ControlAgrees p t t' := by
  cases i with
  | setlen L => exact h.runCommand ht ht' h.direct rfl h.loadParams
  | pad n => exact h.runCommand ht ht' h.pv (by rw [h.prm]) (h.padBuf _ _)
  | absorb => exact h.runCommand ht ht' h.directWithParams rfl fun _ => h.absorbBuf
  | squeeze => exact h.runCommand ht ht' h.directWithParams rfl fun _ => h.squeezeToOut
  | zero | theta | rho | pi | chi | permute => exact h.runCommand ht ht' h.direct rfl fun _ => h.mapLanes _
  | iota r | round r => exact h.runCommand ht ht' h.direct rfl fun _ => h.mapLanes _
  | spStart L => exact h.runCommand ht ht' h.direct rfl startSponge
  | spAbsorb last => exact h.runCommand ht ht' (h.phase_beq _) rfl fun _ => h.absorbAndPermute last
  -- SP_SQUEEZE and SP_CLEAR update a field in place: unification finds their effect only in the unfolded body.
  | spSqueeze =>
    unfold Machine.exec execSpSqueeze at ht ht'
    exact h.runCommand ht ht' (h.phase_beq _) rfl fun _ => h.squeezeToOut.setPhase .done
  | spClear =>
    unfold Machine.exec execSpClear at ht ht'
    exact h.runCommand ht ht' rfl rfl fun _ => h.setPhase .uninit

end ControlAgrees

/-- Settles O55: a command takes states that agree on the control registers to states that agree on them. -/
theorem controlFlowIgnoresData : Obligations.ControlFlowIgnoresData := by
  unfold Obligations.ControlFlowIgnoresData
  intro i s s' t t' hphase hpv hprm ht ht'
  have hagrees : ControlAgrees (s'.ocnt = s.ocnt) s s' := ⟨hphase, hpv, hprm, id⟩
  obtain ⟨herr, hphase', hpv', hprm', hocnt'⟩ := hagrees.exec ht ht'
  exact ⟨herr, hphase', hpv', hprm', hocnt'⟩

end Sys2Proof.Machine
end

section
/-! The opcode table as a partial bijection between commands and words: a row is found by its opcode, and its free fields
are the operand (30_encoding.md R52 to R56). -/

namespace Sys2Proof

/-! ### Each row has an opcode of its own -/

theorem row_mask_opField : ∀ r ∈ opcodeRows, opField r.mask = 255 := by decide

theorem row_pattern_opField : opcodeRows.map (fun r => opField r.pattern) = listedOpcodes := by decide

/-- A word of a row has that row's opcode (R55). -/
theorem opField_of_covers {k : Nat} {r : OpcodeRow} {w : Word} (hr : opcodeRows[k]? = some r)
    (hc : r.covers w = true) : listedOpcodes[k]? = some (opField w) := by
  obtain ⟨hop, -, -⟩ := (covers_iff_fields r w).mp hc
  rw [row_mask_opField r (List.mem_of_getElem? hr), opField_and_full] at hop
  rw [← row_pattern_opField, List.getElem?_map, hr, hop]
  rfl

/-- Settles O4: two rows that cover a word both have its opcode, and no opcode is listed twice. -/
theorem noWordMatchesTwoRows : Obligations.NoWordMatchesTwoRows := by
  unfold Obligations.NoWordMatchesTwoRows
  intro w j k r q hr hq hrc hqc
  have hnodup : listedOpcodes.Nodup := by decide
  have hj := opField_of_covers hr hrc
  have hk := opField_of_covers hq hqc
  obtain ⟨hlt, -⟩ := List.getElem?_eq_some_iff.mp hj
  exact (List.getElem?_inj hlt hnodup).mp (hj.trans hk.symm)

/-- The decoder's answer is the row that covers the word, whichever place it has in the table (R55). -/
theorem decode_eq_ok_iff {w : Word} {i : Instr} :
    decode w = .ok i ↔ ∃ r ∈ opcodeRows, r.covers w = true ∧ r.build w = i := by
  unfold decode
  constructor
  · intro h
    split at h
    · next r hr =>
      injection h with h
      exact ⟨r, List.mem_of_find?_eq_some hr, by simpa using List.find?_some hr, h⟩
    · cases h
  · rintro ⟨r, hr, hc, rfl⟩
    split
    · next q hq =>
      obtain ⟨j, hj⟩ := List.mem_iff_getElem?.mp hr
      obtain ⟨k, hk⟩ := List.mem_iff_getElem?.mp (List.mem_of_find?_eq_some hq)
      have hjk : j = k := noWordMatchesTwoRows w j k r q hj hk hc (by simpa using List.find?_some hq)
      rw [hjk, hk] at hj
      rw [Option.some.inj hj]
    · next hnone => exact absurd hc (by simpa using List.find?_eq_none.mp hnone r hr)

/-! ### The four kinds of row: no operand, `L` in `B`, `n` or `r` in `A`, `last` in bit 8 -/

section
variable {p w : Word} {build : Word → Instr}

theorem covers_full : (⟨p, 0xFFFFFFFF, build⟩ : OpcodeRow).covers w = true ↔ w = p := by
  have hmask : w &&& (0xFFFFFFFF : Word) = w := BitVec.and_allOnes
  rw [OpcodeRow.covers, hmask, beq_iff_eq]

theorem covers_full_iff : (⟨p, 0xFFFFFFFF, build⟩ : OpcodeRow).covers w = true ↔
    opField w = opField p ∧ aField w = aField p ∧ bField w = bField p := by
  rw [covers_full]
  exact ⟨fun h => h ▸ ⟨rfl, rfl, rfl⟩, fun ⟨hop, ha, hb⟩ => word_ext hop ha hb⟩

theorem covers_freeB (hp : bField p = 0) : (⟨p, 0x0000FFFF, build⟩ : OpcodeRow).covers w = true ↔
    opField w = opField p ∧ aField w = aField p := by
  rw [covers_iff_fields, show opField 0x0000FFFF = 255 by decide, show aField 0x0000FFFF = 255 by decide,
    show bField 0x0000FFFF = 0 by decide, opField_and_full, aField_and_full, hp]
  simp

theorem covers_freeA (hp : aField p = 0) : (⟨p, 0xFFFF00FF, build⟩ : OpcodeRow).covers w = true ↔
    opField w = opField p ∧ bField w = bField p := by
  rw [covers_iff_fields, show opField 0xFFFF00FF = 255 by decide, show aField 0xFFFF00FF = 0 by decide,
    show bField 0xFFFF00FF = 65535 by decide, opField_and_full, bField_and_full, hp]
  simp

theorem covers_freeLast (hp : aField p = 0) : (⟨p, 0xFFFFFEFF, build⟩ : OpcodeRow).covers w = true ↔
    opField w = opField p ∧ aField w < 2 ∧ bField w = bField p := by
  rw [covers_iff_fields, show opField 0xFFFFFEFF = 255 by decide, show aField 0xFFFFFEFF = 254 by decide,
    show bField 0xFFFFFEFF = 65535 by decide, opField_and_full, bField_and_full, hp,
    and_254_eq_zero (aField_lt w)]

end

/-- A command word is `w` exactly when `w` has its three fields (R52). -/
theorem commandWord_eq_iff {w : Word} {op a b : Nat} :
    commandWord op a b = w ↔ op % 256 = opField w ∧ a % 256 = aField w ∧ b % 65536 = bField w := by
  rw [← opField_commandWord op a b, ← aField_commandWord op a b, ← bField_commandWord op a b]
  exact ⟨fun h => h ▸ ⟨rfl, rfl, rfl⟩, fun ⟨hop, ha, hb⟩ => word_ext hop ha hb⟩

/-- The fields of a word that is an opcode alone (R52). -/
theorem opField_ofNat {n : Nat} (h : n < 256) : opField (BitVec.ofNat 32 n) = n := by
  simp [opField, BitVec.extractLsb'_toNat]
  omega

theorem aField_ofNat {n : Nat} (h : n < 256) : aField (BitVec.ofNat 32 n) = 0 := by
  simp [aField, BitVec.extractLsb'_toNat, Nat.shiftRight_eq_div_pow]
  omega

theorem bField_ofNat {n : Nat} (h : n < 256) : bField (BitVec.ofNat 32 n) = 0 := by
  simp [bField, BitVec.extractLsb'_toNat, Nat.shiftRight_eq_div_pow]
  omega

/-! ### Each row reads exactly the words of its own well-formed commands -/

section
variable {p w : Word} {i : Instr} {op : Nat}

theorem full_row_reads {c : Instr} (hp : p = encode c) (hwf : c.wellFormed = true) :
    ((⟨p, 0xFFFFFFFF, fun _ => c⟩ : OpcodeRow).covers w = true ∧ c = i) ↔
      i = c ∧ i.wellFormed = true ∧ encode i = w := by
  rw [covers_full, hp]
  constructor
  · rintro ⟨rfl, rfl⟩; exact ⟨rfl, hwf, rfl⟩
  · rintro ⟨rfl, -, rfl⟩; exact ⟨rfl, rfl⟩

theorem freeB_row_reads {c : Nat → Instr} (hp : p = commandWord op 0 0)
    (hwf : ∀ L, (c L).wellFormed = decide (L < 65536)) (henc : ∀ L, encode (c L) = commandWord op 0 L) :
    ((⟨p, 0x0000FFFF, fun w => c (bField w)⟩ : OpcodeRow).covers w = true ∧ c (bField w) = i) ↔
      (∃ L, i = c L) ∧ i.wellFormed = true ∧ encode i = w := by
  rw [covers_freeB (by rw [hp, bField_commandWord]), hp, opField_commandWord, aField_commandWord]
  constructor
  · rintro ⟨⟨hop, ha⟩, rfl⟩
    have hb := bField_lt w
    refine ⟨⟨_, rfl⟩, by simpa [hwf] using hb, ?_⟩
    rw [henc, commandWord_eq_iff]
    omega
  · rintro ⟨⟨L, rfl⟩, hL, hw⟩
    have hL : L < 65536 := by simpa [hwf] using hL
    obtain ⟨hop, ha, hb⟩ := commandWord_eq_iff.mp ((henc L).symm.trans hw)
    exact ⟨⟨hop.symm, ha.symm⟩, by rw [← hb, Nat.mod_eq_of_lt hL]⟩

theorem freeA_row_reads {c : Nat → Instr} (hp : p = commandWord op 0 0)
    (hwf : ∀ n, (c n).wellFormed = decide (n < 256)) (henc : ∀ n, encode (c n) = commandWord op n 0) :
    ((⟨p, 0xFFFF00FF, fun w => c (aField w)⟩ : OpcodeRow).covers w = true ∧ c (aField w) = i) ↔
      (∃ n, i = c n) ∧ i.wellFormed = true ∧ encode i = w := by
  rw [covers_freeA (by rw [hp, aField_commandWord]), hp, opField_commandWord, bField_commandWord]
  constructor
  · rintro ⟨⟨hop, hb⟩, rfl⟩
    have ha := aField_lt w
    refine ⟨⟨_, rfl⟩, by simpa [hwf] using ha, ?_⟩
    rw [henc, commandWord_eq_iff]
    omega
  · rintro ⟨⟨n, rfl⟩, hn, hw⟩
    have hn : n < 256 := by simpa [hwf] using hn
    obtain ⟨hop, ha, hb⟩ := commandWord_eq_iff.mp ((henc n).symm.trans hw)
    exact ⟨⟨hop.symm, hb.symm⟩, by rw [← ha, Nat.mod_eq_of_lt hn]⟩

theorem freeLast_row_reads {c : Bool → Instr} (hp : p = commandWord op 0 0) (hwf : ∀ last, (c last).wellFormed = true)
    (henc : ∀ last, encode (c last) = commandWord op (if last then 1 else 0) 0) :
    ((⟨p, 0xFFFFFEFF, fun w => c (lastField w)⟩ : OpcodeRow).covers w = true ∧ c (lastField w) = i) ↔
      (∃ last, i = c last) ∧ i.wellFormed = true ∧ encode i = w := by
  rw [covers_freeLast (by rw [hp, aField_commandWord]), hp, opField_commandWord, bField_commandWord]
  constructor
  · rintro ⟨⟨hop, ha, hb⟩, rfl⟩
    refine ⟨⟨_, rfl⟩, hwf _, ?_⟩
    rw [henc, commandWord_eq_iff, ← lastField_eq w ha]
    omega
  · rintro ⟨⟨last, rfl⟩, -, hw⟩
    obtain ⟨hop, ha, hb⟩ := commandWord_eq_iff.mp ((henc last).symm.trans hw)
    have ha2 : aField w < 2 := by rw [← ha]; cases last <;> decide
    have hlast : lastField w = last := by
      rw [lastField_eq w ha2] at ha
      cases last <;> cases h : lastField w <;> simp [h] at ha ⊢
    exact ⟨⟨hop.symm, ha2, hb.symm⟩, by rw [hlast]⟩

/-- R55: reading and writing command words are the same relation. -/
theorem decode_eq_ok_iff_encode : decode w = .ok i ↔ i.wellFormed = true ∧ encode i = w := by
  simp only [decode_eq_ok_iff, opcodeRows, List.mem_cons, List.not_mem_nil, or_false, exists_eq_or_imp, exists_eq_left]
  rw [freeB_row_reads (c := .setlen) (op := 0x01) (by decide) (fun _ => rfl) (fun _ => rfl),
    full_row_reads (c := .zero) (by decide) rfl,
    freeA_row_reads (c := .pad) (op := 0x03) (by decide) (fun _ => rfl) (fun _ => rfl),
    full_row_reads (c := .absorb) (by decide) rfl, full_row_reads (c := .squeeze) (by decide) rfl,
    full_row_reads (c := .theta) (by decide) rfl, full_row_reads (c := .rho) (by decide) rfl,
    full_row_reads (c := .pi) (by decide) rfl, full_row_reads (c := .chi) (by decide) rfl,
    freeA_row_reads (c := .iota) (op := 0x14) (by decide) (fun _ => rfl) (fun _ => rfl),
    freeA_row_reads (c := .round) (op := 0x15) (by decide) (fun _ => rfl) (fun _ => rfl),
    full_row_reads (c := .permute) (by decide) rfl,
    freeB_row_reads (c := .spStart) (op := 0x20) (by decide) (fun _ => rfl) (fun _ => rfl),
    freeLast_row_reads (c := .spAbsorb) (op := 0x21) (by decide) (fun _ => rfl) (fun _ => rfl),
    full_row_reads (c := .spSqueeze) (by decide) rfl, full_row_reads (c := .spClear) (by decide) rfl]
  cases i <;> simp

end

/-- Settles O1: the word of a well-formed command is read as that command. -/
theorem decodeEncodeAgree : Obligations.DecodeEncodeAgree := by
  unfold Obligations.DecodeEncodeAgree
  exact fun i hwf => decode_eq_ok_iff_encode.mpr ⟨hwf, rfl⟩

/-- Settles O2: a word is read only as a well-formed command whose word it is. -/
theorem encodeDecodeAgree : Obligations.EncodeDecodeAgree := by
  unfold Obligations.EncodeDecodeAgree
  exact fun w i => decode_eq_ok_iff_encode.mp

/-- Settles O3: a word is a command exactly when some row covers it, and each row's test is a test of the fields. -/
theorem legalWordsByFields : Obligations.LegalWordsByFields := by
  unfold Obligations.LegalWordsByFields
  intro w
  simp only [decode_eq_ok_iff, opcodeRows, List.mem_cons, List.not_mem_nil, or_false, exists_eq_or_imp, exists_eq_left]
  simp (disch := decide) only [exists_or, exists_eq_right', covers_freeB, covers_freeA, covers_freeLast,
    covers_full_iff]
  simp (disch := decide) only [BitVec.ofNat_eq_ofNat, opField_ofNat, aField_ofNat, bField_ofNat, or_and_right]
  -- The same sixteen cases stand on both sides, in another order.
  exact iff_of_eq (by ac_rfl)

end Sys2Proof
end

section
/-! Every command is its test of `PHASE` and `PV`, the error of its operand and its effect (30_encoding.md R58,
60_exceptions.md R118): what holds of these three holds of the commands. -/

namespace Sys2Proof.Machine

/-- The test of `PHASE` and `PV` a command makes first (R118, R123). -/
def legalTest : Instr → State → Bool
  | .pad _, s => s.pv
  | .absorb, s => s.directWithParams
  | .squeeze, s => s.directWithParams
  | .spAbsorb _, s => s.phase == .absorbing
  | .spSqueeze, s => s.phase == .squeezing
  | .spClear, _ => true
  | _, s => s.direct

/-- The error of a command's operand, if it is out of range (R113, R114). -/
def operandError : Instr → State → Option Err
  | .setlen L, _ => if L ∈ legalLengths then none else some .eCfg
  | .spStart L, _ => if L ∈ legalLengths then none else some .eCfg
  | .pad n, s => if n < s.prm.rateBytes then none else some .ePre
  | .iota r, _ => if r < 24 then none else some .ePre
  | .round r, _ => if r < 24 then none else some .ePre
  | _, _ => none

/-- What a command does to the state when it completes, but for `ERR` (R58). -/
def effectOf : Instr → State → State
  | .setlen L, s => s.loadParams (prmOf L)
  | .zero, s => mapLanes (fun _ => zeroLanes) s
  | .pad n, s => padBuf s.prm.rateBytes n s
  | .absorb, s => absorbBuf s
  | .squeeze, s => squeezeToOut s
  | .theta, s => mapLanes thetaStep s
  | .rho, s => mapLanes rhoStep s
  | .pi, s => mapLanes piStep s
  | .chi, s => mapLanes chiStep s
  | .iota r, s => mapLanes (fun A => iotaStep A r) s
  | .round r, s => mapLanes (fun A => roundStep A r) s
  | .permute, s => mapLanes keccakF s
  | .spStart L, s => startSponge (prmOf L) s
  | .spAbsorb last, s => absorbAndPermute last s
  | .spSqueeze, s => { squeezeToOut s with phase := .done }
  | .spClear, s => { s with phase := .uninit }

/-- A command that completes: its effect, and `ERR = 0` (R24). -/
def State.completed (i : Instr) (s : State) : State := { effectOf i s with err := .eNone }

/-! ### The three parts make up the command -/

section
variable {i : Instr} {s t : State} {e : Err}

theorem runCommand_of_illegal {α : Type} {legal : Bool} (operand : Except Err α) (effect : α → State → State)
    (hl : legal = false) : runCommand legal operand effect s = .next (s.failed .eSeq) := by
  rw [hl, runCommand_illegal, State.failed]

theorem exec_of_illegal (hl : legalTest i s = false) : exec i s = .next (s.failed .eSeq) := by
  cases i with
  | spClear => cases hl
  | spSqueeze =>
    unfold exec execSpSqueeze
    exact runCommand_of_illegal _ _ hl
  | _ => exact runCommand_of_illegal _ _ hl

theorem exec_of_operandError (hl : legalTest i s = true) (ho : operandError i s = some e) :
    exec i s = .next (s.failed e) := by
  cases i with
  | setlen L | spStart L =>
    simp only [operandError, Option.ite_none_left_eq_some, Option.some.injEq] at ho
    obtain ⟨hL, rfl⟩ := ho
    exact runCommand_raises _ s hl (params_of_illegal hL)
  | pad n =>
    simp only [operandError, Option.ite_none_left_eq_some, Option.some.injEq] at ho
    obtain ⟨hn, rfl⟩ := ho
    exact runCommand_raises _ s hl (padLength_of_ge (Nat.le_of_not_lt hn))
  | iota r | round r =>
    simp only [operandError, Option.ite_none_left_eq_some, Option.some.injEq] at ho
    obtain ⟨hr, rfl⟩ := ho
    exact runCommand_raises _ s hl (roundIndex_of_ge (Nat.le_of_not_lt hr))
  | _ => cases ho

theorem exec_completes (hl : legalTest i s = true) (ho : operandError i s = none) :
    exec i s = .next (s.completed i) := by
  cases i with
  | setlen L | spStart L =>
    exact runCommand_completes _ s hl (params_of_legal (by simpa [operandError] using ho))
  | pad n => exact runCommand_completes _ s hl (padLength_of_lt (by simpa [operandError] using ho))
  | iota r | round r => exact runCommand_completes _ s hl (roundIndex_of_lt (by simpa [operandError] using ho))
  | spSqueeze =>
    unfold exec execSpSqueeze
    exact runCommand_completes _ s hl rfl
  | spClear => rfl
  | _ => exact runCommand_completes _ s hl rfl

/-- Everything a command can do, in the order of R118. -/
theorem exec_cases (h : exec i s = .next t) :
    (legalTest i s = false ∧ t = s.failed .eSeq) ∨
      (∃ e, legalTest i s = true ∧ operandError i s = some e ∧ t = s.failed e) ∨
      (legalTest i s = true ∧ operandError i s = none ∧ t = s.completed i) := by
  cases hl : legalTest i s with
  | false =>
    rw [exec_of_illegal hl] at h
    cases h
    exact .inl ⟨rfl, rfl⟩
  | true =>
    cases ho : operandError i s with
    | some e =>
      rw [exec_of_operandError hl ho] at h
      cases h
      exact .inr (.inl ⟨e, rfl, rfl, rfl⟩)
    | none =>
      rw [exec_completes hl ho] at h
      cases h
      exact .inr (.inr ⟨rfl, rfl, rfl⟩)

end
end Sys2Proof.Machine
end

section
/-! The invariant: what a command's effect does to the control registers, and that every step keeps their relations
(10_state.md R19, R20, R22; 60_exceptions.md R116, R123). -/

namespace Sys2Proof.Machine

/-- The invariant speaks of the control registers alone. -/
theorem State.Inv.congr {s t : State} (h : s.Inv) (hprm : t.prm = s.prm) (hpv : t.pv = s.pv)
    (hphase : t.phase = s.phase) (hocnt : t.ocnt = s.ocnt) (hef : t.err ≠ .eNone → t.ef = true) : t.Inv where
  prm_zero := by rw [hpv, hprm]; exact h.prm_zero
  prm_row := by rw [hpv, hprm]; exact h.prm_row
  pv_of_sponge := by rw [hpv, hphase]; exact h.pv_of_sponge
  ocnt_legal := by rw [hocnt]; exact h.ocnt_legal
  ocnt_zero := by rw [hphase, hocnt]; exact h.ocnt_zero
  ocnt_done := by rw [hphase, hocnt, hprm]; exact h.ocnt_done
  ef_of_err := hef

section
variable {i : Instr} {s t : State}

theorem State.Inv.answer (h : s.Inv) (rest : List HostMove) (r : Response) : (s.answer rest r).Inv :=
  h.congr rfl rfl rfl rfl h.ef_of_err

theorem State.Inv.storeBytes (h : s.Inv) (a n : Nat) (v : BitVec 64) : (storeBytes s a n v).Inv :=
  h.congr (by simp) (by simp) (by simp) (by simp) (by simpa using h.ef_of_err)

theorem State.Inv.failed (h : s.Inv) (e : Err) : (s.failed e).Inv := h.congr rfl rfl rfl rfl fun _ => rfl

/-- In direct mode the invariant asks for a row of the parameter table, or none, and a legal `OCNT` (R19, R22). -/
theorem State.Inv.of_direct (hphase : s.phase = .uninit) (hzero : s.pv = false → s.prm = Prm.zero)
    (hrow : s.pv = true → s.prm.isRow) (hocnt : s.ocnt = 0 ∨ ∃ L ∈ legalLengths, s.ocnt = BitVec.ofNat 32 (L / 8))
    (hef : s.err ≠ .eNone → s.ef = true) : s.Inv where
  prm_zero := hzero
  prm_row := hrow
  pv_of_sponge := fun h => absurd hphase h
  ocnt_legal := hocnt
  ocnt_zero := by simp [hphase]
  ocnt_done := by simp [hphase]
  ef_of_err := hef

theorem State.Inv.afterReset (epoch : Nat) (moves : List HostMove) : (State.afterReset epoch moves).Inv :=
  .of_direct rfl (fun _ => rfl) (by simp) (.inl rfl) (by simp)

/-- The digest length in bytes that a squeeze puts into `OCNT` is a legal one (R22). -/
theorem State.Inv.digestBytes_legal (h : s.Inv) (hpv : s.pv = true) :
    ∃ L ∈ legalLengths, BitVec.ofNat 32 s.prm.digestBytes = BitVec.ofNat 32 (L / 8) := by
  obtain ⟨L, hL, -, -, hdb⟩ := h.byteCounts hpv
  exact ⟨L, hL, by rw [hdb]⟩

/-- A command that completes keeps the invariant: SETLEN and SP_START load a row of R64, the squeezes set `OCNT`, the
sponge commands move `PHASE`, and the others leave the control registers alone. -/
theorem State.Inv.completed (h : s.Inv) (hl : legalTest i s = true) (ho : operandError i s = none) :
    (s.completed i).Inv := by
  cases i with
  | setlen L =>
    have hL : L ∈ legalLengths := by simpa [operandError] using ho
    exact .of_direct (direct_iff.mp hl) nofun (fun _ => ⟨L, hL, rfl⟩) h.ocnt_legal (absurd rfl)
  | squeeze =>
    obtain ⟨hphase, hpv⟩ := directWithParams_iff.mp hl
    exact .of_direct hphase h.prm_zero h.prm_row (.inr (h.digestBytes_legal hpv)) (absurd rfl)
  | spClear => exact .of_direct rfl h.prm_zero h.prm_row h.ocnt_legal (absurd rfl)
  | spStart L =>
    have hL : L ∈ legalLengths := by simpa [operandError] using ho
    exact ⟨nofun, fun _ => ⟨L, hL, rfl⟩, fun _ => rfl, .inl rfl, fun _ => rfl, nofun, absurd rfl⟩
  | spAbsorb last =>
    have hphase : s.phase = .absorbing := by simpa [legalTest] using hl
    have hpv : s.pv = true := h.pv_of_sponge (by simp [hphase])
    have hocnt : s.ocnt = 0 := h.ocnt_zero (.inl hphase)
    refine ⟨h.prm_zero, h.prm_row, fun _ => hpv, h.ocnt_legal, fun _ => hocnt, fun hdone => ?_, absurd rfl⟩
    cases last <;> simp [State.completed, effectOf, hphase] at hdone
  | spSqueeze =>
    have hphase : s.phase = .squeezing := by simpa [legalTest] using hl
    have hpv : s.pv = true := h.pv_of_sponge (by simp [hphase])
    exact ⟨h.prm_zero, h.prm_row, fun _ => hpv, .inr (h.digestBytes_legal hpv), nofun, fun _ => rfl, absurd rfl⟩
  | _ => exact h.congr rfl rfl rfl rfl (absurd rfl)

theorem State.Inv.exec (h : s.Inv) (hi : exec i s = .next t) : t.Inv := by
  rcases exec_cases hi with ⟨-, rfl⟩ | ⟨e, -, -, rfl⟩ | ⟨hl, ho, rfl⟩
  · exact h.failed _
  · exact h.failed e
  · exact h.completed hl ho

end

/-- Settles O18: the moves that issue no command leave the control registers alone or reset them, and the commands keep
the invariant whether they fail or complete. -/
theorem stepKeepsInvariant : Obligations.StepKeepsInvariant := by
  unfold Obligations.StepKeepsInvariant
  intro s t h hs
  rcases step_cases hs with ⟨-, rfl⟩ | ⟨a, n, rest, -, rfl⟩ | ⟨a, n, v, rest, -, -, rfl⟩ |
    ⟨a, n, v, rest, -, -, -, rfl⟩ | ⟨v, rest, i, -, -, hi⟩ | ⟨v, rest, e, -, -, rfl⟩ | ⟨rest, -, rfl⟩
  · exact h
  · exact h.answer rest _
  · exact h.answer rest _
  · exact (h.storeBytes a n v).answer rest _
  · exact (h.answer rest _).exec hi
  · exact (h.answer rest _).failed .eIll
  · exact .afterReset _ _

/-- Settles O17: the registers of the reset state are constants, and every state after a reset is sound. -/
theorem resetStateIsSound : Obligations.ResetStateIsSound :=
  ⟨rfl, rfl, rfl, rfl, rfl, rfl, .afterReset 0 []⟩

end Sys2Proof.Machine
end

section
/-! Errors, `EF`, and the frame of each command: which commands change which part of the state (10_state.md R18 to R27,
45_sponge_fsm.md R100, R108, 60_exceptions.md R116 to R123). -/

namespace Sys2Proof.Machine

section
variable {i : Instr} {s t : State}

/-! ### Tests and operands read neither `ERR` nor `EF` (R25) -/

theorem legalTest_failed (i : Instr) (s : State) (e : Err) : legalTest i (s.failed e) = legalTest i s := by
  cases i <;> rfl

theorem operandError_failed (i : Instr) (s : State) (e : Err) : operandError i (s.failed e) = operandError i s := by
  cases i <;> rfl

theorem legalTest_setEf (i : Instr) (s : State) (b : Bool) : legalTest i { s with ef := b } = legalTest i s := by
  cases i <;> rfl

theorem operandError_setEf (i : Instr) (s : State) (b : Bool) :
    operandError i { s with ef := b } = operandError i s := by
  cases i <;> rfl

theorem completed_setEf (i : Instr) (s : State) (b : Bool) :
    State.completed i { s with ef := b } = { s.completed i with ef := b } := by
  cases i <;> rfl

/-- The operand errors are `E_CFG` and `E_PRE` (R113, R114). -/
theorem operandError_cases {e : Err} (ho : operandError i s = some e) : e = .eCfg ∨ e = .ePre := by
  cases i with
  | setlen L | spStart L =>
    simp only [operandError, Option.ite_none_left_eq_some, Option.some.injEq] at ho
    exact .inl ho.2.symm
  | pad n | iota r | round r =>
    simp only [operandError, Option.ite_none_left_eq_some, Option.some.injEq] at ho
    exact .inr ho.2.symm
  | _ => cases ho

/-- `ERR = 0` after a command says that it completed (R24). -/
theorem completed_of_err_eNone (h : exec i s = .next t) (herr : t.err = .eNone) :
    legalTest i s = true ∧ operandError i s = none ∧ t = s.completed i := by
  rcases exec_cases h with ⟨-, rfl⟩ | ⟨e, -, ho, rfl⟩ | hcompletes
  · cases herr
  · rw [State.failed_err] at herr
    rcases operandError_cases ho with rfl | rfl <;> cases herr
  · exact hcompletes

/-- `E_SEQ` is the answer to an illegal command and to no other (R115, R118). -/
theorem exec_err_eSeq_iff (h : exec i s = .next t) : t.err = .eSeq ↔ legalTest i s = false := by
  rcases exec_cases h with ⟨hl, rfl⟩ | ⟨e, hl, ho, rfl⟩ | ⟨hl, -, rfl⟩
  · simp [hl]
  · rcases operandError_cases ho with rfl | rfl <;> simp [hl]
  · simp [hl, State.completed]

/-- What errors leave alone and the effect of a command keeps, the command keeps. -/
theorem exec_keeps {α : Type} (f : State → α) (hfailed : ∀ e, f (s.failed e) = f s)
    (hcompleted : legalTest i s = true → f (s.completed i) = f s) (h : exec i s = .next t) : f t = f s := by
  rcases exec_cases h with ⟨-, rfl⟩ | ⟨e, -, -, rfl⟩ | ⟨hl, -, rfl⟩
  · exact hfailed _
  · exact hfailed e
  · exact hcompleted hl

end

/-- Settles O24: the tests that failed read nothing that raising an error has changed. -/
theorem failingCommandFailsAgain : Obligations.FailingCommandFailsAgain := by
  unfold Obligations.FailingCommandFailsAgain
  intro i s t h herr
  rcases exec_cases h with ⟨hl, rfl⟩ | ⟨e, hl, ho, rfl⟩ | ⟨-, -, rfl⟩
  · exact exec_of_illegal (by rw [legalTest_failed, hl])
  · exact exec_of_operandError (by rw [legalTest_failed, hl]) (by rw [operandError_failed, ho])
  · exact absurd rfl herr

/-! ### A write to `CMD` -/

section
variable {s t : State} {v : BitVec 64} {rest : List HostMove}

/-- A write to `CMD` runs the command of its word, or raises `E_ILL` (R58, R117). -/
theorem step_cmd_cases (hp : s.pending = .write 0x300 4 v :: rest) (h : step s = .next t) :
    (∃ i, decode (v.setWidth 32) = .ok i ∧ exec i (s.answer rest .accepted) = .next t) ∨
      t = (s.answer rest .accepted).failed .eIll := by
  cases hd : decode (v.setWidth 32) with
  | ok i => rw [step_command hp hd] at h; exact .inl ⟨i, rfl, h⟩
  | error e => rw [step_illegal hp hd] at h; injection h with h; exact .inr h.symm

theorem step_cmd_fails_or_completes (hp : s.pending = .write 0x300 4 v :: rest) (h : step s = .next t) :
    (∃ e, e ≠ .eNone ∧ t = (s.answer rest .accepted).failed e) ∨ (t.err = .eNone ∧ t.ef = s.ef) := by
  rcases step_cmd_cases hp h with ⟨i, -, hi⟩ | rfl
  · exact exec_fails_or_completes hi
  · exact .inl ⟨.eIll, by decide, rfl⟩

end

/-- Settles O19: a word that is no command and a command that fails leave the same kind of state. -/
theorem failingCommandChangesOnlyErrAndEf : Obligations.FailingCommandChangesOnlyErrAndEf := by
  unfold Obligations.FailingCommandChangesOnlyErrAndEf
  intro s t v rest hp h herr
  rcases step_cmd_fails_or_completes hp h with ⟨e, -, rfl⟩ | ⟨hnone, -⟩
  · rfl
  · exact absurd hnone herr

theorem exec_setEf {i : Instr} {s t : State} (b : Bool) (h : exec i s = .next t) :
    exec i { s with ef := b } = .next { t with ef := b || t.err != .eNone } := by
  rcases exec_cases h with ⟨hl, rfl⟩ | ⟨e, hl, ho, rfl⟩ | ⟨hl, ho, rfl⟩
  · rw [exec_of_illegal (by rw [legalTest_setEf, hl])]
    simp [State.failed]
  · rw [exec_of_operandError (by rw [legalTest_setEf, hl]) (by rw [operandError_setEf, ho])]
    rcases operandError_cases ho with rfl | rfl <;> simp [State.failed]
  · rw [exec_completes (by rw [legalTest_setEf, hl]) (by rw [operandError_setEf, ho]), completed_setEf]
    simp [State.completed]

/-- Settles O20: of the moves only a write to `CMD` sets `EF` and only a reset clears it, and no test and no effect of a
command reads it. -/
theorem efIsStickyAndUnread : Obligations.EfIsStickyAndUnread := by
  unfold Obligations.EfIsStickyAndUnread
  refine ⟨fun s t v rest hp h => ?_, fun s t hnoreset hnocmd h => ?_, fun s t rest hp h => ?_,
    fun i s t b h => exec_setEf b h⟩
  · rcases step_cmd_fails_or_completes hp h with ⟨e, he, rfl⟩ | ⟨herr, hef⟩
    · simp [State.failed, he]
    · simp [herr, hef]
  · rcases step_cases h with ⟨-, rfl⟩ | ⟨a, n, rest, -, rfl⟩ | ⟨a, n, v, rest, -, -, rfl⟩ |
      ⟨a, n, v, rest, -, -, -, rfl⟩ | ⟨v, rest, i, hp, -, -⟩ | ⟨v, rest, e, hp, -, -⟩ | ⟨rest, hp, -⟩
    · rfl
    · rfl
    · rfl
    · simp
    · exact absurd hp (hnocmd v rest)
    · exact absurd hp (hnocmd v rest)
    · exact absurd hp (hnoreset rest)
  · rw [step_reset hp] at h
    injection h with h
    rw [← h, State.afterReset_ef]

/-- In a sound state the model's test is the table of R123; they differ only on PAD outside direct mode (log 13). -/
theorem legalTest_eq_legalIn {s : State} (h : s.Inv) (i : Instr) : legalTest i s = legalIn i s.phase s.pv := by
  cases i with
  | pad n =>
    cases hphase : s.phase with
    | uninit => rfl
    | absorbing | squeezing | done => exact h.pv_of_sponge (by simp [hphase])
  | _ => rfl

/-- Settles O21: `E_SEQ` is raised by the first test alone, and in a sound state that test is the table. -/
theorem legalityTableDecidesSeq : Obligations.LegalityTableDecidesSeq := by
  unfold Obligations.LegalityTableDecidesSeq
  intro i s t hinv h
  rw [exec_err_eSeq_iff h, legalTest_eq_legalIn hinv]

/-! ### `PHASE` (R100) -/

/-- Settles O25: errors and all effects but those of the four sponge commands keep `PHASE`. -/
theorem phaseTransitionTable : Obligations.PhaseTransitionTable := by
  unfold Obligations.PhaseTransitionTable
  refine ⟨fun i s t h => ?_, fun i s t h hpair => ?_, fun s t rest hp h => ?_⟩
  · cases i with
    | spStart L =>
      rcases execSpStart_cases h with ⟨hphase, rfl⟩ | ⟨-, hL, rfl⟩ | ⟨hphase, hL, rfl⟩
      · exact (if_neg fun hc => hphase hc.1).symm
      · exact (if_neg fun hc => hL (by simpa [legalLengths] using hc.2)).symm
      · exact (if_pos ⟨hphase, by simpa [legalLengths] using hL⟩).symm
    | spAbsorb last =>
      rcases execSpAbsorb_cases h with ⟨hphase, rfl⟩ | ⟨hphase, rfl⟩
      · exact (if_neg fun hc => hphase hc.1).symm
      · simp [hphase]
    | spSqueeze =>
      rcases execSpSqueeze_cases h with ⟨hphase, rfl⟩ | ⟨hphase, rfl⟩
      · exact (if_neg hphase).symm
      · exact (if_pos hphase).symm
    | spClear => injection h with h; rw [← h]
    | _ => exact exec_keeps State.phase (fun _ => rfl) (fun _ => rfl) h
  · rw [exec_err_eSeq_iff h]
    rcases hpair with ⟨⟨L, rfl⟩, hphase⟩ | ⟨⟨last, rfl⟩, hphase⟩ | ⟨rfl, hphase⟩
    · simpa [legalTest, State.direct] using hphase
    · simpa [legalTest] using hphase
    · simpa [legalTest] using hphase
  · rw [step_reset hp] at h
    injection h with h
    rw [← h, State.afterReset_phase]

/-! ### The frame of each command, one part of the state at a time -/

section
variable {i : Instr} {s t : State} (h : exec i s = .next t)
include h

theorem exec_buf_cases : t.buf = s.buf ∨ ∃ n, i = .pad n := by
  cases i with
  | pad n => exact .inr ⟨n, rfl⟩
  | _ => exact .inl (exec_keeps State.buf (fun _ => rfl) (fun _ => rfl) h)

theorem exec_out_cases : t.out = s.out ∨ i = .squeeze ∨ i = .spSqueeze := by
  cases i with
  | squeeze => exact .inr (.inl rfl)
  | spSqueeze => exact .inr (.inr rfl)
  | _ => exact .inl (exec_keeps State.out (fun _ => rfl) (fun _ => rfl) h)

theorem exec_prm_cases : t.prm = s.prm ∨ ∃ L, i = .setlen L ∨ i = .spStart L := by
  cases i with
  | setlen L => exact .inr ⟨L, .inl rfl⟩
  | spStart L => exact .inr ⟨L, .inr rfl⟩
  | _ => exact .inl (exec_keeps State.prm (fun _ => rfl) (fun _ => rfl) h)

theorem exec_ocnt_cases : t.ocnt = s.ocnt ∨ i = .squeeze ∨ i = .spSqueeze ∨ ∃ L, i = .spStart L := by
  cases i with
  | squeeze => exact .inr (.inl rfl)
  | spSqueeze => exact .inr (.inr (.inl rfl))
  | spStart L => exact .inr (.inr (.inr ⟨L, rfl⟩))
  | _ => exact .inl (exec_keeps State.ocnt (fun _ => rfl) (fun _ => rfl) h)

/-- The model's own fields are the interface's; no command touches them (log 1, log 2, log 4). -/
theorem exec_keeps_interface : t.pending = s.pending ∧ t.response = s.response ∧ t.resets = s.resets := by
  have hcompleted (i : Instr) (s : State) : (s.completed i).pending = s.pending ∧
      (s.completed i).response = s.response ∧ (s.completed i).resets = s.resets := by
    cases i <;> exact ⟨rfl, rfl, rfl⟩
  rcases exec_cases h with ⟨-, rfl⟩ | ⟨e, -, -, rfl⟩ | ⟨-, -, rfl⟩
  · exact ⟨rfl, rfl, rfl⟩
  · exact ⟨rfl, rfl, rfl⟩
  · exact hcompleted i s

end

/-- In a sound state the digest fits in the rate, so a squeeze does not permute (R97). -/
theorem squeezeToOut_lanes_of_inv {s : State} (hinv : s.Inv) (hpv : s.pv = true) :
    (squeezeToOut s).lanes = s.lanes := by
  obtain ⟨hlt, -⟩ := hinv.bounds hpv
  rw [squeezeToOut_lanes, squeezeOut_of_le _ _ _ hlt.le]

/-- SP_SQUEEZE and SQUEEZE run with parameters loaded (R123). -/
theorem pv_of_squeeze_legal {i : Instr} {s : State} (hinv : s.Inv) (hi : i = .squeeze ∨ i = .spSqueeze)
    (hl : legalTest i s = true) : s.pv = true := by
  rcases hi with rfl | rfl
  · exact (directWithParams_iff.mp hl).2
  · have hphase : s.phase = .squeezing := by simpa [legalTest] using hl
    exact hinv.pv_of_sponge (by simp [hphase])

theorem exec_lanes_cases {i : Instr} {s t : State} (hinv : s.Inv) (h : exec i s = .next t) :
    t.lanes = s.lanes ∨ i ∈ ([.zero, .absorb, .theta, .rho, .pi, .chi, .permute] : List Instr) ∨
      (∃ r, i = .iota r ∨ i = .round r) ∨ (∃ L, i = .spStart L) ∨ ∃ last, i = .spAbsorb last := by
  cases i with
  | setlen L | pad n | spClear => exact .inl (exec_keeps State.lanes (fun _ => rfl) (fun _ => rfl) h)
  | squeeze =>
    exact .inl (exec_keeps State.lanes (fun _ => rfl)
      (fun hl => squeezeToOut_lanes_of_inv hinv (pv_of_squeeze_legal hinv (.inl rfl) hl)) h)
  | spSqueeze =>
    exact .inl (exec_keeps State.lanes (fun _ => rfl)
      (fun hl => squeezeToOut_lanes_of_inv hinv (pv_of_squeeze_legal hinv (.inr rfl) hl)) h)
  | _ => simp

/-- Settles O26, one part of the state after the other. -/
theorem commandWriteFrame : Obligations.CommandWriteFrame := by
  unfold Obligations.CommandWriteFrame
  intro i s t hinv h
  refine ⟨(exec_lanes_cases hinv h).resolve_left, (exec_buf_cases h).resolve_left, (exec_out_cases h).resolve_left,
    fun hne => ?_, (exec_ocnt_cases h).resolve_left, exec_keeps_interface h⟩
  rcases hne with hprm | hpv
  · exact (exec_prm_cases h).resolve_left hprm
  · rcases exec_pv_cases h with ⟨hi, -, -⟩ | ⟨-, hkept⟩
    · exact hi
    · exact absurd hkept hpv

/-- Settles O28: the effects of SP_START and of the squeezes set `OCNT`, and nothing else touches it. -/
theorem ocntRule : Obligations.OcntRule := by
  unfold Obligations.OcntRule
  refine ⟨rfl, fun i s t h => ⟨?_, ?_, fun hsq hsp hstart => ?_⟩⟩
  · rintro ⟨L, rfl⟩ herr
    obtain ⟨-, -, rfl⟩ := completed_of_err_eNone h herr
    rfl
  · rintro (rfl | rfl) herr
    · obtain ⟨-, -, rfl⟩ := completed_of_err_eNone h herr
      rfl
    · obtain ⟨-, -, rfl⟩ := completed_of_err_eNone h herr
      rfl
  · refine (exec_ocnt_cases h).resolve_right ?_
    rintro (hi | hi | ⟨L, hi⟩)
    · exact hsq hi
    · exact hsp hi
    · exact hstart L hi

end Sys2Proof.Machine
end

section
/-! One step and the host window: which accesses are admitted, what they read and store (20_memory.md), and what a step
leaves alone in `DONE` and while a sponge lives (45_sponge_fsm.md R108, 20_memory.md R42). -/

namespace Sys2Proof.Machine

/-! ### Moves that are a command, a reset, or none -/

/-- Settles O6: the state with the move taken and answered is the one the command runs on. -/
theorem stepRunsDecodedCommand : Obligations.StepRunsDecodedCommand := by
  unfold Obligations.StepRunsDecodedCommand
  exact fun s v rest i hp hd => step_command hp hd

/-- Settles O7: a word the decoder takes for no command is rejected under some name, and all names raise `E_ILL`. -/
theorem illegalWordRaisesIll : Obligations.IllegalWordRaisesIll := by
  unfold Obligations.IllegalWordRaisesIll
  intro s v rest hp hnone
  cases hd : decode (v.setWidth 32) with
  | ok i => exact absurd hd (hnone i)
  | error e => exact step_illegal hp hd

/-- Settles O16: the registers after a reset are constants. -/
theorem resetMoveResetsControlState : Obligations.ResetMoveResetsControlState := by
  unfold Obligations.ResetMoveResetsControlState
  exact fun s rest hp => ⟨_, step_reset hp, rfl, rfl, rfl, rfl, rfl, rfl, rfl⟩

/-- Every step answers a next state (R119, R138). -/
theorem step_next (s : State) : ∃ t, step s = .next t := by
  cases hp : s.pending with
  | nil => exact ⟨_, step_idle hp⟩
  | cons m rest =>
    cases m with
    | read a n => exact ⟨_, step_read hp⟩
    | reset => exact ⟨_, step_reset hp⟩
    | write a n v =>
      cases hw : writeAdmitted s a n with
      | false => exact ⟨_, step_write_refused hp hw⟩
      | true =>
        by_cases hr : regionOf a = .registers
        · obtain ⟨rfl, rfl⟩ := write_register_is_cmd hw hr
          cases hd : decode (v.setWidth 32) with
          | ok i => rw [step_command hp hd]; exact exec_next i _
          | error e => exact ⟨_, step_illegal hp hd⟩
        · exact ⟨_, step_write_data hp hw hr⟩

theorem step_takes_move {s t : State} (h : step s = .next t) : t.pending = s.pending.tail := by
  rcases step_cases h with ⟨hp, rfl⟩ | ⟨a, n, rest, hp, rfl⟩ | ⟨a, n, v, rest, hp, -, rfl⟩ |
    ⟨a, n, v, rest, hp, -, -, rfl⟩ | ⟨v, rest, i, hp, -, hi⟩ | ⟨v, rest, e, hp, -, rfl⟩ | ⟨rest, hp, rfl⟩
  case inr.inr.inr.inr.inl =>
    obtain ⟨hkept, -, -⟩ := exec_keeps_interface hi
    rw [hkept, hp]
    rfl
  all_goals rw [hp]; rfl

/-- Settles O8: no move stops the core, each is taken whatever its answer, and the idle step is the identity. -/
theorem stepTakesOneMove : Obligations.StepTakesOneMove := by
  unfold Obligations.StepTakesOneMove
  intro s
  obtain ⟨t, h⟩ := step_next s
  refine ⟨t, h, step_takes_move h, fun hp => ?_⟩
  rw [step_idle hp] at h
  injection h with h
  exact h.symm

/-! ### Admission (R41) -/

theorem readAdmitted_iff {a n : Nat} : readAdmitted a n = true ↔
    (n = 1 ∨ n = 2 ∨ n = 4 ∨ n = 8) ∧ n ∣ a ∧
      (a + n ≤ 0xC8 ∨ (0x100 ≤ a ∧ a + n ≤ 0x190) ∨ (0x200 ≤ a ∧ a + n ≤ 0x240) ∨
        (n = 4 ∧ 0x304 ≤ a ∧ a + n ≤ 0x31C)) := by
  constructor
  · intro h
    obtain ⟨hn, hd, hmap⟩ := wellShaped_iff.mp (wellShaped_of_read h)
    refine ⟨hn, hd, ?_⟩
    rcases hmap with hmap | hmap | hmap | hmap
    · exact .inl hmap
    · exact .inr (.inl hmap)
    · exact .inr (.inr (.inl hmap))
    · have hr : regionOf a = .registers := regionOf_registers.mpr (by omega)
      obtain ⟨-, rfl, hcmd⟩ : wellShaped a n = true ∧ n = 4 ∧ a ≠ 0x300 := by
        simpa [readAdmitted, hr, cmdAddr] using h
      omega
  · rintro ⟨hn, hd, hmap⟩
    have hw : wellShaped a n = true := wellShaped_iff.mpr ⟨hn, hd, by omega⟩
    rcases hmap with hmap | hmap | hmap | ⟨rfl, hmap⟩
    · simp [readAdmitted, hw, regionOf_state.mpr (show a < 0xC8 by omega)]
    · simp [readAdmitted, hw, regionOf_buf.mpr (show 0x100 ≤ a ∧ a < 0x190 by omega)]
    · simp [readAdmitted, hw, regionOf_out.mpr (show 0x200 ≤ a ∧ a < 0x240 by omega)]
    · have hcmd : a ≠ 0x300 := by omega
      simp [readAdmitted, hw, regionOf_registers.mpr (show 0x300 ≤ a ∧ a < 0x31C by omega), hcmd, cmdAddr]

theorem writeAdmitted_iff {s : State} {a n : Nat} : writeAdmitted s a n = true ↔
    (n = 1 ∨ n = 2 ∨ n = 4 ∨ n = 8) ∧ n ∣ a ∧
      ((a + n ≤ 0xC8 ∧ s.phase = .uninit) ∨ (0x100 ≤ a ∧ a + n ≤ 0x190) ∨ (n = 4 ∧ a = 0x300)) := by
  constructor
  · intro h
    obtain ⟨hn, hd, hmap⟩ := wellShaped_iff.mp (wellShaped_of_write h)
    refine ⟨hn, hd, ?_⟩
    rcases hmap with hmap | hmap | hmap | hmap
    · have hr : regionOf a = .state := regionOf_state.mpr (by omega)
      obtain ⟨-, hphase⟩ : wellShaped a n = true ∧ s.phase = .uninit := by simpa [writeAdmitted, hr] using h
      exact .inl ⟨hmap, hphase⟩
    · exact .inr (.inl hmap)
    · have hr : regionOf a = .out := regionOf_out.mpr (by omega)
      simp [writeAdmitted, hr] at h
    · obtain ⟨ha, hn4⟩ := write_register_is_cmd h (regionOf_registers.mpr (by omega))
      exact .inr (.inr ⟨hn4, ha⟩)
  · rintro ⟨hn, hd, ⟨hmap, hphase⟩ | hmap | ⟨rfl, rfl⟩⟩
    · have hw : wellShaped a n = true := wellShaped_iff.mpr ⟨hn, hd, .inl hmap⟩
      simp [writeAdmitted, hw, regionOf_state.mpr (show a < 0xC8 by omega), hphase]
    · have hw : wellShaped a n = true := wellShaped_iff.mpr ⟨hn, hd, .inr (.inl hmap)⟩
      simp [writeAdmitted, hw, regionOf_buf.mpr (show 0x100 ≤ a ∧ a < 0x190 by omega)]
    · exact writeAdmitted_cmd s

theorem step_read_admitted {s : State} {a n : Nat} {rest : List HostMove} (hp : s.pending = .read a n :: rest)
    (hadm : readAdmitted a n = true) : step s = .next (s.answer rest (.value (readValue s a n))) := by
  rw [step_read hp, if_pos hadm]

theorem step_read_refused {s : State} {a n : Nat} {rest : List HostMove} (hp : s.pending = .read a n :: rest)
    (hadm : readAdmitted a n = false) : step s = .next (s.answer rest .refused) := by
  rw [step_read hp, if_neg (by simp [hadm])]

/-- Settles O12: the two admission rules over the written-out map, and the two refusals. -/
theorem accessAdmissionRule : Obligations.AccessAdmissionRule := by
  unfold Obligations.AccessAdmissionRule
  exact ⟨fun a n => readAdmitted_iff, fun s a n => writeAdmitted_iff,
    fun s a n rest hadm hp => step_read_refused hp hadm, fun s a n v rest hadm hp => step_write_refused hp hadm⟩

/-! ### Reads (R36) -/

/-- The value of a read of a data region, byte by byte. -/
theorem readValue_of_data {s : State} {a n : Nat} (hr : regionOf a ≠ .registers) :
    readValue s a n = laneOfBytes fun k => if k < n then (peekByte s (a + k)).getD 0 else 0 := by
  cases h : regionOf a with
  | registers => exact absurd h hr
  | _ => simp only [readValue, h]

theorem readValue_of_register {s : State} {a n : Nat} (hr : regionOf a = .registers) :
    readValue s a n = (registerValue s a).setWidth 64 := by simp only [readValue, hr]

theorem peekByte_state {s : State} {b : Nat} (hb : b < 0xC8) : peekByte s b = some (stateByte s.lanes b) := by
  simp only [peekByte, regionOf_state.mpr hb]

theorem peekByte_buf {s : State} {b : Nat} (hb : 0x100 ≤ b ∧ b < 0x190) :
    peekByte s b = some (bufByte s.buf (b - 0x100)) := by
  simp only [peekByte, regionOf_buf.mpr hb, bufBase]

theorem peekByte_out {s : State} {b : Nat} (hb : 0x200 ≤ b ∧ b < 0x240) :
    peekByte s b = some (outByte s.out (b - 0x200)) := by
  simp only [peekByte, regionOf_out.mpr hb, outBase]

theorem byteOfLane_readValue {s : State} {a n k : Nat} (hr : regionOf a ≠ .registers) (hn : n ≤ 8) (hk : k < n) :
    byteOfLane (readValue s a n) k = (peekByte s (a + k)).getD 0 := by
  rw [readValue_of_data hr, byteOfLane_laneOfBytes _ _ (by omega), if_pos hk]

/-- A read answers no bit above its width (R36, log 9). -/
theorem readValue_lt {s : State} {a n : Nat} (hadm : readAdmitted a n = true) :
    (readValue s a n).toNat < 2 ^ (8 * n) := by
  obtain ⟨hn, -, hmap⟩ := readAdmitted_iff.mp hadm
  refine Nat.lt_pow_two_of_testBit _ fun j hj => ?_
  rw [← BitVec.getLsbD]
  by_cases hr : regionOf a = .registers
  · rw [regionOf_registers] at hr
    rw [readValue_of_register (regionOf_registers.mpr hr), BitVec.getLsbD_setWidth,
      BitVec.getLsbD_of_ge _ j (by omega), Bool.and_false]
  · rcases Nat.lt_or_ge j 64 with hj64 | hj64
    · rw [readValue_of_data hr, laneOfBytes_bit _ _ hj64, if_neg (by omega)]
      simp
    · exact BitVec.getLsbD_of_ge _ j hj64

/-- Settles O9: the value of an admitted read is made of the bytes of its region, and none lie above the width. -/
theorem hostReadGivesWindowBytes : Obligations.HostReadGivesWindowBytes := by
  unfold Obligations.HostReadGivesWindowBytes
  intro s a n rest hp
  refine ⟨fun hadm => ⟨_, step_read_admitted hp hadm, readValue_lt hadm, fun k hk => ?_⟩, step_read_refused hp⟩
  obtain ⟨hn, -, hmap⟩ := readAdmitted_iff.mp hadm
  have hbyte : a < 0x300 → byteOfLane (readValue s a n) k = (peekByte s (a + k)).getD 0 := fun ha =>
    byteOfLane_readValue (fun hr => by have := regionOf_registers.mp hr; omega) (by omega) hk
  refine ⟨fun ha => ?_, fun hlo hhi => ?_, fun hlo hhi => ?_, fun ha => ?_⟩
  · exact (hbyte (by omega)).trans (by rw [peekByte_state (by omega), Option.getD_some])
  · refine (hbyte (by omega)).trans ?_
    rw [peekByte_buf (by omega), Option.getD_some, Nat.sub_add_comm hlo]
  · refine (hbyte (by omega)).trans ?_
    rw [peekByte_out (by omega), Option.getD_some, Nat.sub_add_comm hlo]
  · rw [readValue_of_register (regionOf_registers.mpr (by omega))]
    refine BitVec.eq_of_getLsbD_eq fun i hi => ?_
    simp [hi, show 8 * k + i < 64 by omega]

/-- Settles O10: each of the six registers has its place in the map, `CMD` and the writes above it are not admitted. -/
theorem registerReadsShowState : Obligations.RegisterReadsShowState := by
  unfold Obligations.RegisterReadsShowState
  refine ⟨fun s a v rest hmem hp => ?_, fun s rest hp => step_read_refused hp (by decide),
    fun s a n v rest ha hp => step_write_refused hp ?_⟩
  · simp only [List.mem_cons, Prod.mk.injEq, List.not_mem_nil, or_false] at hmem
    rcases hmem with ⟨rfl, rfl⟩ | ⟨rfl, rfl⟩ | ⟨rfl, rfl⟩ | ⟨rfl, rfl⟩ | ⟨rfl, rfl⟩ | ⟨rfl, rfl⟩ <;>
      exact step_read_admitted hp (by decide)
  · rw [← Bool.not_eq_true, writeAdmitted_iff]
    omega

theorem readValue_answer (s : State) (rest : List HostMove) (r : Response) (a n : Nat) :
    readValue (s.answer rest r) a n = readValue s a n := rfl

/-- Settles O15: a read changes nothing that a read answers. -/
theorem readsAreIdempotent : Obligations.ReadsAreIdempotent := by
  unfold Obligations.ReadsAreIdempotent
  intro s t u a n rest hp ht hu
  rw [step_read hp] at ht
  injection ht with ht
  subst ht
  rw [step_read rfl] at hu
  injection hu with hu
  subst hu
  rw [readValue_answer]
  exact ⟨rfl, rfl⟩

/-! ### `STATUS` (R23) -/

theorem statusWord_bit (s : State) (i : Nat) : (statusWord s).getLsbD i =
    if i < 2 then s.phase.code.getLsbD i
    else if i = 2 then s.pv
    else if i = 3 then s.ef
    else if i < 8 then s.err.code.getLsbD (i - 4)
    else false := by
  unfold statusWord
  simp only [BitVec.getLsbD_append]
  rcases (by omega : i < 2 ∨ i = 2 ∨ i = 3 ∨ (4 ≤ i ∧ i < 8) ∨ 8 ≤ i) with h | rfl | rfl | ⟨hlo, hhi⟩ | h
  · simp [h]
  · simp
  · simp
  · simp [hhi, show ¬ i < 2 by omega, show i ≠ 2 by omega, show i ≠ 3 by omega, show ¬ i - 2 < 1 by omega,
      show ¬ i - 2 - 1 < 1 by omega, show i - 2 - 1 - 1 = i - 4 by omega, show i - 4 < 4 by omega]
  · simp [show ¬ i < 2 by omega, show i ≠ 2 by omega, show i ≠ 3 by omega, show ¬ i < 8 by omega,
      show ¬ i - 2 < 1 by omega, show ¬ i - 2 - 1 < 1 by omega, show ¬ i - 2 - 1 - 1 < 4 by omega]

/-- Settles O11, bit by bit. -/
theorem statusWordFields : Obligations.StatusWordFields := by
  unfold Obligations.StatusWordFields
  intro s
  have hphase : (statusWord s).extractLsb' 0 2 = s.phase.code := BitVec.eq_of_getLsbD_eq fun i hi => by
    rw [BitVec.getLsbD_extractLsb', statusWord_bit]
    simp [hi]
  have herr : (statusWord s).extractLsb' 4 4 = s.err.code := BitVec.eq_of_getLsbD_eq fun i hi => by
    rw [BitVec.getLsbD_extractLsb', statusWord_bit]
    simp [hi, show ¬ 4 + i < 2 by omega, show 4 + i ≠ 2 by omega, show 4 + i ≠ 3 by omega, show 4 + i < 8 by omega]
  refine ⟨?_, statusWord_bit s 2, statusWord_bit s 3, ?_, fun i hi => ?_⟩
  · rw [hphase]; cases s.phase <;> rfl
  · rw [herr]; cases s.err <;> rfl
  · rw [statusWord_bit, if_neg (by omega), if_neg (by omega), if_neg (by omega), if_neg (by omega)]

/-! ### Writes to the data regions (R37) -/

section
variable {s : State} {a n b : Nat} {v : BitVec 64}

theorem storeBytes_state (ha : a < 0xC8) :
    storeBytes s a n v = { s with lanes := lanesOfBytes (overlay (stateByte s.lanes) a n v) } := by
  simp only [storeBytes, regionOf_state.mpr ha]

theorem storeBytes_buf (ha : 0x100 ≤ a ∧ a < 0x190) :
    storeBytes s a n v = { s with buf := tabulate 144 (overlay (bufByte s.buf) (a - 0x100) n v) } := by
  simp only [storeBytes, regionOf_buf.mpr ha, bufBase]

/-- A byte of the window depends on the region it lies in alone (R34). -/
theorem peekByte_congr {s t : State} (hlanes : b < 0xC8 → stateByte t.lanes b = stateByte s.lanes b)
    (hbuf : 0x100 ≤ b ∧ b < 0x190 → bufByte t.buf (b - 0x100) = bufByte s.buf (b - 0x100)) (hout : t.out = s.out) :
    peekByte t b = peekByte s b := by
  cases hr : regionOf b with
  | state => rw [regionOf_state] at hr; rw [peekByte_state hr, peekByte_state hr, hlanes hr]
  | buf => rw [regionOf_buf] at hr; rw [peekByte_buf hr, peekByte_buf hr, hbuf hr]
  | out => rw [regionOf_out] at hr; rw [peekByte_out hr, peekByte_out hr, hout]
  | registers | unmapped => simp only [peekByte, hr]

/-- Where a write stores its bytes: in `S` or in `BUF`, all inside (R34, R41). -/
theorem writeAdmitted_data (hadm : writeAdmitted s a n = true) (ha : a ≠ 0x300) :
    a + n ≤ 0xC8 ∨ (0x100 ≤ a ∧ a + n ≤ 0x190) := by
  obtain ⟨-, -, ⟨hmap, -⟩ | hmap | ⟨-, hcmd⟩⟩ := writeAdmitted_iff.mp hadm
  · exact .inl hmap
  · exact .inr hmap
  · exact absurd hcmd ha

theorem peekByte_storeBytes_inside (hmap : a + n ≤ 0xC8 ∨ (0x100 ≤ a ∧ a + n ≤ 0x190)) {k : Nat} (hk : k < n) :
    peekByte (storeBytes s a n v) (a + k) = some (byteOfLane v k) := by
  rcases hmap with hmap | hmap
  · rw [storeBytes_state (by omega), peekByte_state (by omega), stateByte_lanesOfBytes _ _ (by omega),
      overlay_inside _ _ _ _ _ hk]
  · rw [storeBytes_buf (by omega), peekByte_buf (by omega), bufByte_tabulate _ _ (by omega),
      Nat.sub_add_comm hmap.1, overlay_inside _ _ _ _ _ hk]

theorem peekByte_storeBytes_outside (hmap : a + n ≤ 0xC8 ∨ (0x100 ≤ a ∧ a + n ≤ 0x190)) (hn : 0 < n)
    (hb : b < a ∨ a + n ≤ b) : peekByte (storeBytes s a n v) b = peekByte s b := by
  rcases hmap with hmap | hmap
  · rw [storeBytes_state (by omega)]
    refine peekByte_congr (fun hb200 => ?_) (fun _ => rfl) rfl
    rw [stateByte_lanesOfBytes _ _ hb200, overlay_outside _ _ _ _ _ hb]
  · rw [storeBytes_buf (by omega)]
    refine peekByte_congr (fun _ => rfl) (fun hb144 => ?_) rfl
    rw [bufByte_tabulate _ _ (by omega), overlay_outside _ _ _ _ _ (by omega)]

/-- A write touches `S` and `BUF` at most. -/
theorem storeBytes_frame : storeBytes s a n v =
    { s with lanes := (storeBytes s a n v).lanes, buf := (storeBytes s a n v).buf } := by
  unfold storeBytes
  split <;> rfl

end

/-- Settles O13: the bytes of the value where they were written, the old bytes everywhere else. -/
theorem admittedWriteStoresBytes : Obligations.AdmittedWriteStoresBytes := by
  unfold Obligations.AdmittedWriteStoresBytes
  intro s a n v rest hp
  refine ⟨fun hadm ha => ?_, fun hadm => step_write_refused hp hadm⟩
  obtain ⟨hn, -, -⟩ := writeAdmitted_iff.mp hadm
  have hmap := writeAdmitted_data hadm ha
  have hr : regionOf a ≠ .registers := fun hr => by have := regionOf_registers.mp hr; omega
  refine ⟨_, step_write_data hp hadm hr, ?_, fun k hk => peekByte_storeBytes_inside hmap hk,
    fun b hb => peekByte_storeBytes_outside hmap (by omega) hb⟩
  exact congrArg (State.answer · rest .accepted) storeBytes_frame

/-- A whole lane written (R39). -/
theorem laneAt_lanesOfBytes_overlay (A : Lanes) (v : Lane) {j l : Nat} (hl : l < 25) :
    laneAt (lanesOfBytes (overlay (stateByte A) (8 * j) 8 v)) l = if l = j then v else laneAt A l := by
  rw [laneAt_lanesOfBytes _ _ hl]
  split
  · next h =>
    rw [h, ← laneOfBytes_byteOfLane v]
    refine laneOfBytes_congr fun k hk => ?_
    rw [overlay_inside _ _ _ _ _ hk, laneOfBytes_byteOfLane]
  · rw [← laneOfBytes_byteOfLane (laneAt A l)]
    refine laneOfBytes_congr fun k hk => ?_
    rw [overlay_outside _ _ _ _ _ (by omega), stateByte_of_laneAt _ _ _ hk]

/-- The upper half of a lane, as a 4-byte read gives it (R36, R40). -/
theorem readValue_upperHalf (s : State) {x y : Nat} (hx : x < 5) (hy : y < 5) :
    readValue s (8 * (x + 5 * y) + 4) 4 = ((lane s.lanes x y).extractLsb' 32 32).setWidth 64 := by
  have hr : regionOf (8 * (x + 5 * y) + 4) ≠ .registers := fun hr => by
    have := regionOf_registers.mp hr
    omega
  refine BitVec.eq_of_getLsbD_eq fun i hi => ?_
  rw [readValue_of_data hr, laneOfBytes_bit _ _ hi]
  by_cases h32 : i < 32
  · rw [if_pos (by omega), peekByte_state (by omega), Option.getD_some, Nat.add_assoc,
      stateByte_of_lane _ _ _ _ (by omega), byteOfLane_bit _ _ _ (by omega)]
    simp [hi, h32, show 8 * (4 + i / 8) + i % 8 = 32 + i by omega]
  · rw [if_neg (by omega)]
    simp [h32]

/-- Settles O14: the bytes of `S` are the bytes of its lanes, whatever the width of the access. -/
theorem mixedWidthsSeeTheSameBytes : Obligations.MixedWidthsSeeTheSameBytes := by
  unfold Obligations.MixedWidthsSeeTheSameBytes
  refine ⟨fun s x y v rest hx hy hphase hp => ?_, fun s x y rest hx hy hp => ?_⟩
  · have hadm : writeAdmitted s (8 * (x + 5 * y)) 8 = true :=
      writeAdmitted_iff.mpr ⟨by omega, Nat.dvd_mul_right _ _, .inl ⟨by omega, hphase⟩⟩
    have hr : regionOf (8 * (x + 5 * y)) ≠ .registers := fun hr => by
      have := regionOf_registers.mp hr
      omega
    have hstep := step_write_data hp hadm hr
    rw [storeBytes_state (by omega)] at hstep
    refine ⟨_, fun x' y' hx' hy' => ?_, fun k hk => ?_, hstep⟩
    · rw [lane, laneAt_lanesOfBytes_overlay _ _ (by omega)]
      exact if_congr (by omega) rfl rfl
    · rw [stateByte_lanesOfBytes _ _ (by omega), overlay_inside _ _ _ _ _ hk]
      rfl
  · have hadm : readAdmitted (8 * (x + 5 * y) + 4) 4 = true := readAdmitted_iff.mpr ⟨by omega, by omega, by omega⟩
    rw [step_read_admitted hp hadm, readValue_upperHalf s hx hy]
    rfl

/-! ### What a living sponge and a finished one keep -/

/-- Outside direct mode a write stores nothing in `S` (R42). -/
theorem storeBytes_lanes_of_sponge {s : State} {a n : Nat} {v : BitVec 64} (hphase : s.phase ≠ .uninit)
    (hadm : writeAdmitted s a n = true) : (storeBytes s a n v).lanes = s.lanes := by
  obtain ⟨hn, -, ⟨-, hdirect⟩ | hmap | ⟨rfl, rfl⟩⟩ := writeAdmitted_iff.mp hadm
  · exact absurd hdirect hphase
  · rw [storeBytes_buf (by omega)]
  · rfl

/-- In `DONE` only PAD and SP_CLEAR are legal (R108, R123). -/
theorem legalTest_done {i : Instr} {s : State} (hphase : s.phase = .done) (hclear : i ≠ .spClear)
    (hpad : ∀ n, i ≠ .pad n) : legalTest i s = false := by
  cases i with
  | spClear => exact absurd rfl hclear
  | pad n => exact absurd rfl (hpad n)
  | _ => simp [legalTest, State.direct, State.directWithParams, hphase]

/-- The parts of the state R108 speaks of. -/
def digestParts (s : State) : Phase × Lanes × Vector Byte 64 × Word × Prm × Bool :=
  (s.phase, s.lanes, s.out, s.ocnt, s.prm, s.pv)

theorem exec_keeps_digestParts {i : Instr} {s t : State} (hphase : s.phase = .done) (hclear : i ≠ .spClear)
    (h : exec i s = .next t) : digestParts t = digestParts s := by
  refine exec_keeps digestParts (fun _ => rfl) (fun hl => ?_) h
  cases i with
  | pad n => rfl
  | _ => rw [legalTest_done hphase hclear nofun] at hl; cases hl

/-- Settles O53: the host's writes reach neither `S` nor `OUT`, and of the commands but SP_CLEAR only PAD is legal. -/
theorem doneIsTerminal : Obligations.DoneIsTerminal := by
  unfold Obligations.DoneIsTerminal
  refine ⟨fun i s hphase hclear hpad => exec_of_illegal (legalTest_done hphase hclear hpad),
    fun s t hphase hnoreset hword h => ?_⟩
  have hkept : digestParts t = digestParts s := by
    rcases step_cases h with ⟨-, rfl⟩ | ⟨a, n, rest, -, rfl⟩ | ⟨a, n, v, rest, -, -, rfl⟩ |
      ⟨a, n, v, rest, -, hadm, hr, rfl⟩ | ⟨v, rest, i, hp, hd, hi⟩ | ⟨v, rest, e, -, -, rfl⟩ | ⟨rest, hp, -⟩
    · rfl
    · rfl
    · rfl
    · have hlanes := storeBytes_lanes_of_sponge (v := v) (by simp [hphase]) hadm
      simp [digestParts, hlanes]
    · refine exec_keeps_digestParts (s := s.answer rest .accepted) hphase ?_ hi
      rintro rfl
      obtain ⟨-, henc⟩ := decode_eq_ok_iff_encode.mp hd
      exact hword v rest hp (henc.symm.trans (by decide))
    · rfl
    · exact absurd hp (hnoreset rest)
  simp only [digestParts, Prod.mk.injEq] at hkept
  rw [← hphase]
  exact hkept

/-- Of the commands that change `S` only SP_ABSORB is legal outside direct mode (R123). -/
theorem exec_lanes_of_sponge {i : Instr} {s t : State} (hinv : s.Inv) (hphase : s.phase ≠ .uninit)
    (h : exec i s = .next t) : t.lanes = s.lanes ∨ (s.phase = .absorbing ∧ ∃ last, i = .spAbsorb last) := by
  cases hl : legalTest i s with
  | false =>
    rw [exec_of_illegal hl] at h
    injection h with h
    exact .inl (by rw [← h]; rfl)
  | true =>
    rcases exec_lanes_cases hinv h with hkept | hmem | ⟨r, rfl | rfl⟩ | ⟨L, rfl⟩ | ⟨last, rfl⟩
    · exact .inl hkept
    · simp only [List.mem_cons, List.not_mem_nil, or_false] at hmem
      rcases hmem with rfl | rfl | rfl | rfl | rfl | rfl | rfl <;>
        simp [legalTest, State.direct, State.directWithParams, hphase] at hl
    · exact absurd (direct_iff.mp hl) hphase
    · exact absurd (direct_iff.mp hl) hphase
    · exact absurd (direct_iff.mp hl) hphase
    · exact .inr ⟨by simpa [legalTest] using hl, last, rfl⟩

/-- Settles O54: outside direct mode the host's writes do not reach `S`, and of the commands only SP_ABSORB does. -/
theorem spongeOwnsState : Obligations.SpongeOwnsState := by
  unfold Obligations.SpongeOwnsState
  intro s t hinv hphase h hne
  rcases step_cases h with ⟨-, rfl⟩ | ⟨a, n, rest, -, rfl⟩ | ⟨a, n, v, rest, -, -, rfl⟩ |
    ⟨a, n, v, rest, -, hadm, -, rfl⟩ | ⟨v, rest, i, hp, hd, hi⟩ | ⟨v, rest, e, -, -, rfl⟩ | ⟨rest, hp, -⟩
  · exact absurd rfl hne
  · exact absurd rfl hne
  · exact absurd rfl hne
  · exact absurd (storeBytes_lanes_of_sponge hphase hadm) hne
  · obtain ⟨habsorbing, last, rfl⟩ := (exec_lanes_of_sponge (hinv.answer rest .accepted) hphase hi).resolve_left hne
    exact .inr ⟨habsorbing, v, rest, last, hp, hd⟩
  · exact absurd rfl hne
  · exact .inl ⟨rest, hp⟩

end Sys2Proof.Machine
end

section
/-! The commands of the permutation, one after the other, and how they make up ROUND and PERMUTE (42_step_mappings.md,
43_round_permutation.md). -/

namespace Sys2Proof.Machine

/-! ### Lane commands in direct mode -/

/-- The state after a command that completed and wrote `S` alone. -/
def State.withLanes (s : State) (A : Lanes) : State := { s with lanes := A, err := .eNone }

/-- In direct mode the command applies `f` to `S`, completes, and changes nothing else (R73). -/
def AppliesToLanes (i : Instr) (f : Lanes → Lanes) : Prop :=
  ∀ s : State, s.phase = .uninit → exec i s = .next (s.withLanes (f s.lanes))

/-- One lane command after another works on the State the other left. -/
theorem AppliesToLanes.after {i : Instr} {f : Lanes → Lanes} (h : AppliesToLanes i f) {s : State}
    (hphase : s.phase = .uninit) (A : Lanes) : exec i (s.withLanes A) = .next (s.withLanes (f A)) :=
  h (s.withLanes A) hphase

theorem zero_applies : AppliesToLanes .zero fun _ => zeroLanes :=
  fun _ hphase => exec_completes (i := .zero) (direct_iff.mpr hphase) rfl

theorem theta_applies : AppliesToLanes .theta thetaStep :=
  fun _ hphase => exec_completes (i := .theta) (direct_iff.mpr hphase) rfl

theorem rho_applies : AppliesToLanes .rho rhoStep :=
  fun _ hphase => exec_completes (i := .rho) (direct_iff.mpr hphase) rfl

theorem pi_applies : AppliesToLanes .pi piStep :=
  fun _ hphase => exec_completes (i := .pi) (direct_iff.mpr hphase) rfl

theorem chi_applies : AppliesToLanes .chi chiStep :=
  fun _ hphase => exec_completes (i := .chi) (direct_iff.mpr hphase) rfl

theorem permute_applies : AppliesToLanes .permute keccakF :=
  fun _ hphase => exec_completes (i := .permute) (direct_iff.mpr hphase) rfl

theorem iota_applies {r : Nat} (hr : r < 24) : AppliesToLanes (.iota r) fun A => iotaStep A r :=
  fun _ hphase => exec_completes (i := .iota r) (direct_iff.mpr hphase) (if_pos hr)

theorem round_applies {r : Nat} (hr : r < 24) : AppliesToLanes (.round r) fun A => roundStep A r :=
  fun _ hphase => exec_completes (i := .round r) (direct_iff.mpr hphase) (if_pos hr)

/-- Settles O33: every lane of the zero State is zero. -/
theorem zeroClearsState : Obligations.ZeroClearsState := by
  unfold Obligations.ZeroClearsState
  exact fun s hphase => ⟨zeroLanes, lane_zeroLanes, zero_applies s hphase⟩

/-! ### Theta (R75, R76) -/

theorem columnParity_bit (A : Lanes) (x i : Nat) : (columnParity A x).getLsbD i =
    ((lane A x 0).getLsbD i ^^ (lane A x 1).getLsbD i ^^ (lane A x 2).getLsbD i ^^ (lane A x 3).getLsbD i ^^
      (lane A x 4).getLsbD i) := by
  simp only [columnParity, BitVec.getLsbD_xor]

/-- Settles O34: a column's parity is taken bit by bit, and rotating by one moves bit `i - 1` to bit `i`. -/
theorem thetaMixesColumnParities : Obligations.ThetaMixesColumnParities := by
  unfold Obligations.ThetaMixesColumnParities
  refine fun s hphase => ⟨thetaStep s.lanes, fun x y i hx hy hi => ?_, theta_applies s hphase⟩
  rw [lane_thetaStep _ _ _ hx hy, thetaD, BitVec.getLsbD_xor, BitVec.getLsbD_xor, rotl64_bit _ _ _ (by omega) hi,
    columnParity_bit, columnParity_bit, show i + 64 - 1 = i + 63 by omega]
  exact (Bool.xor_assoc _ _ _).symm

theorem rotl64_xor (a b : Lane) {n : Nat} (hn : n < 64) : rotl64 (a ^^^ b) n = rotl64 a n ^^^ rotl64 b n :=
  BitVec.eq_of_getLsbD_eq fun i hi => by
    rw [BitVec.getLsbD_xor, rotl64_bit _ _ _ hn hi, rotl64_bit _ _ _ hn hi, rotl64_bit _ _ _ hn hi,
      BitVec.getLsbD_xor]

/-- Settles O35: parities, rotations and XOR are linear, and Theta is made of these. -/
theorem thetaIsLinear : Obligations.ThetaIsLinear := by
  unfold Obligations.ThetaIsLinear
  intro A B C hC x y hx hy
  have hparity : ∀ x, x < 5 → columnParity C x = columnParity A x ^^^ columnParity B x := fun x hx => by
    simp only [columnParity, hC x _ hx (by omega : 0 < 5), hC x _ hx (by omega : 1 < 5), hC x _ hx (by omega : 2 < 5),
      hC x _ hx (by omega : 3 < 5), hC x _ hx (by omega : 4 < 5)]
    ac_rfl
  rw [lane_thetaStep _ _ _ hx hy, lane_thetaStep _ _ _ hx hy, lane_thetaStep _ _ _ hx hy, hC x y hx hy]
  simp only [thetaD, hparity _ (Nat.mod_lt _ (by omega : 0 < 5)), rotl64_xor _ _ (by omega : 1 < 64)]
  ac_rfl

/-! ### Rho, Pi, Chi, Iota (R77 to R84) -/

/-- Settles O36: rotating left by `ROT[x][y]` takes bit `i` to the bit that far above it. -/
theorem rhoRotatesEachLane : Obligations.RhoRotatesEachLane := by
  unfold Obligations.RhoRotatesEachLane
  refine fun s hphase => ⟨rhoStep s.lanes, fun x y i hx hy hi => ?_, rho_applies s hphase⟩
  have hrot := rotationOffset_lt x y hx hy
  rw [lane_rhoStep _ _ _ hx hy, rotl64_bit _ _ _ hrot (Nat.mod_lt _ (by omega))]
  congr 1
  omega

/-- Settles O37: the source of lane `(y, 2x + 3y)` is lane `(x, y)`, since `y + 3(2x + 3y) = x` mod 5. -/
theorem piMovesEachLane : Obligations.PiMovesEachLane := by
  unfold Obligations.PiMovesEachLane
  refine fun s hphase => ⟨piStep s.lanes, fun x y hx hy => ?_, pi_applies s hphase⟩
  have hsource : (y + 3 * ((2 * x + 3 * y) % 5)) % 5 = x := by omega
  rw [lane_piStep _ _ _ hy (Nat.mod_lt _ (by omega)), hsource]

/-- Settles O38: the operations of R81 work bit by bit. -/
theorem chiCombinesRowNeighbours : Obligations.ChiCombinesRowNeighbours := by
  unfold Obligations.ChiCombinesRowNeighbours
  refine fun s hphase => ⟨chiStep s.lanes, fun x y i hx hy hi => ?_, chi_applies s hphase⟩
  rw [lane_chiStep _ _ _ hx hy, BitVec.getLsbD_xor, BitVec.getLsbD_and, BitVec.getLsbD_not, decide_eq_true hi,
    Bool.true_and]

/-- Settles O39: Iota's lane (0,0), and its other lanes. -/
theorem iotaXorsRoundConstant : Obligations.IotaXorsRoundConstant := by
  unfold Obligations.IotaXorsRoundConstant
  refine fun s r hphase hr => ⟨iotaStep s.lanes r, ?_, fun x y hx hy hxy => ?_, iota_applies (by omega) s hphase⟩
  · rw [lane_iotaStep _ _ _ _ (by omega) (by omega), if_pos ⟨rfl, rfl⟩]
  · rw [lane_iotaStep _ _ _ _ hx hy, if_neg hxy]

/-! ### Commands in a row (R58) -/

theorem runCommands_cons {i : Instr} {is : List Instr} {s t u : State} (h : exec i s = .next t)
    (hrest : runCommands is t = .next u) : runCommands (i :: is) s = .next u := by
  rw [← hrest]
  simp only [runCommands, h]

/-- Settles O40: each of the five commands finds the State the one before it left. -/
theorem roundIsFiveSteps : Obligations.RoundIsFiveSteps := by
  unfold Obligations.RoundIsFiveSteps
  intro s r hphase hr
  have hr : r < 24 := Nat.lt_succ_of_le hr
  refine ⟨roundStep s.lanes r, ?_, round_applies hr s hphase⟩
  refine runCommands_cons (theta_applies s hphase) ?_
  refine runCommands_cons (rho_applies.after hphase _) ?_
  refine runCommands_cons (pi_applies.after hphase _) ?_
  refine runCommands_cons (chi_applies.after hphase _) ?_
  exact runCommands_cons ((iota_applies hr).after hphase _) rfl

/-- Rounds in a row fold the round function over their indices. -/
theorem runCommands_rounds {rs : List Nat} {s : State} (hphase : s.phase = .uninit) (hrs : ∀ r ∈ rs, r < 24)
    (A : Lanes) : runCommands (rs.map .round) (s.withLanes A) = .next (s.withLanes (rs.foldl roundStep A)) := by
  induction rs generalizing A with
  | nil => rfl
  | cons r rs ih =>
    exact runCommands_cons ((round_applies (hrs r List.mem_cons_self)).after hphase A)
      (ih (fun q hq => hrs q (List.mem_cons_of_mem r hq)) (roundStep A r))

theorem keccakF_eq (A : Lanes) :
    keccakF A = ((List.range 23).map Nat.succ).foldl roundStep (roundStep A 0) := by
  rw [keccakF, roundCount, List.range_succ_eq_map, List.foldl_cons]

/-- Settles O41: the fold over the rounds is the run of the ROUND commands. -/
theorem permuteIs24Rounds : Obligations.PermuteIs24Rounds := by
  unfold Obligations.PermuteIs24Rounds
  intro s hphase
  have hothers := runCommands_rounds (rs := (List.range 23).map Nat.succ) hphase (by decide) (roundStep s.lanes 0)
  rw [← keccakF_eq] at hothers
  exact ⟨keccakF s.lanes, runCommands_cons (round_applies (by omega) s hphase) hothers, permute_applies s hphase⟩

end Sys2Proof.Machine
end

section
/-! The sponge's data path: bytes and lanes of the State, ABSORB and SQUEEZE, and the commands that load parameters
(40_params.md, 44_absorb_squeeze.md, 45_sponge_fsm.md). -/

namespace Sys2Proof.Machine

/-! ### Bytes and lanes (R15) -/

/-- Settles O42: a byte is eight bits of its lane, and the lane is the concatenation of its bytes. -/
theorem stateBytesAreLaneBytes : Obligations.StateBytesAreLaneBytes := by
  unfold Obligations.StateBytesAreLaneBytes
  intro A x y hx hy
  refine ⟨fun k i hk hi => ?_, ?_⟩
  · rw [stateByte_of_lane _ _ _ _ hk, byteOfLane_bit _ _ _ hi]
  · have hbytes : laneOfBytes (fun k => stateByte A (8 * (x + 5 * y) + k)) = lane A x y := by
      rw [laneOfBytes_congr fun k hk => stateByte_of_lane A x y k hk, laneOfBytes_byteOfLane]
    exact hbytes.symm

/-! ### ABSORB (R92, R93) -/

section
variable {s : State} (hphase : s.phase = .uninit) (hpv : s.pv = true)
include hphase hpv

theorem exec_absorb_direct : exec .absorb s = .next { s with
    lanes := xorBlock s.lanes (bufByte s.buf) s.prm.rateBytes, err := .eNone } :=
  exec_completes (i := .absorb) (directWithParams_iff.mpr ⟨hphase, hpv⟩) rfl

end

/-- Settles O43, byte by byte. -/
theorem absorbXorsRateRegion : Obligations.AbsorbXorsRateRegion := by
  unfold Obligations.AbsorbXorsRateRegion
  refine fun s hphase hpv => ⟨_, fun i hi hin => ?_, fun i hi hout => ?_, exec_absorb_direct hphase hpv⟩
  · rw [stateByte_xorBlock _ _ _ _ hi, if_pos hin]
  · rw [stateByte_xorBlock _ _ _ _ hi, if_neg (by omega)]

theorem laneOfBytes_xor (b c : Nat → Byte) :
    laneOfBytes (fun k => b k ^^^ c k) = laneOfBytes b ^^^ laneOfBytes c :=
  BitVec.eq_of_getLsbD_eq fun i hi => by
    rw [BitVec.getLsbD_xor, laneOfBytes_bit _ _ hi, laneOfBytes_bit _ _ hi, laneOfBytes_bit _ _ hi,
      BitVec.getLsbD_xor]

theorem laneOfBytes_stateByte (A : Lanes) (j : Nat) : laneOfBytes (fun k => stateByte A (8 * j + k)) = laneAt A j := by
  rw [laneOfBytes_congr fun k hk => stateByte_of_laneAt A j k hk, laneOfBytes_byteOfLane]

/-- A rate of whole lanes cuts none (R92): a lane is in the rate region with all its bytes, or with none. -/
theorem laneAt_xorBlock (A : Lanes) (blk : Nat → Byte) {RB j : Nat} (hRB : RB % 8 = 0) (hj : j < 25) :
    laneAt (xorBlock A blk RB) j =
      if j < RB / 8 then laneAt A j ^^^ laneOfBytes (fun k => blk (8 * j + k)) else laneAt A j := by
  rw [xorBlock, laneAt_lanesOfBytes _ _ hj, ← laneOfBytes_stateByte A j]
  split
  · rw [← laneOfBytes_xor]
    exact laneOfBytes_congr fun k hk => if_pos (by omega)
  · exact laneOfBytes_congr fun k hk => if_neg (by omega)

/-- Settles O44: a sound state's rate is a number of whole lanes. -/
theorem absorbIsLaneWise : Obligations.AbsorbIsLaneWise := by
  unfold Obligations.AbsorbIsLaneWise
  intro s hinv hphase hpv
  obtain ⟨-, hRB144, -, hRB8, -⟩ := hinv.bounds hpv
  refine ⟨_, fun j hj => ?_, fun j hlo hj => ?_, exec_absorb_direct hphase hpv⟩
  · rw [laneAt_xorBlock _ _ hRB8 (by omega), if_pos hj]
    rfl
  · rw [laneAt_xorBlock _ _ hRB8 hj, if_neg (by omega)]

theorem xorBlock_xorBlock (A : Lanes) (blk : Nat → Byte) (RB : Nat) : xorBlock (xorBlock A blk RB) blk RB = A :=
  lanes_ext_bytes fun i hi => by
    rw [stateByte_xorBlock _ _ _ _ hi, stateByte_xorBlock _ _ _ _ hi]
    split
    · rw [BitVec.xor_assoc, BitVec.xor_self, BitVec.xor_zero]
    · rfl

/-- Settles O45: XORing the same block twice cancels, and ABSORB changes nothing the second one reads. -/
theorem absorbTwiceRestores : Obligations.AbsorbTwiceRestores := by
  unfold Obligations.AbsorbTwiceRestores
  intro s hphase hpv
  refine runCommands_cons (exec_absorb_direct hphase hpv) (runCommands_cons (exec_absorb_direct hphase hpv) ?_)
  simp only [runCommands, xorBlock_xorBlock]

/-! ### SQUEEZE and SP_SQUEEZE (R95 to R97, R107) -/

section
variable {s : State} (hinv : s.Inv) (hpv : s.pv = true)
include hinv hpv

theorem outByte_squeezeToOut {i : Nat} (hi : i < 64) :
    outByte (squeezeToOut s).out i = if i < s.prm.digestBytes then stateByte s.lanes i else outByte s.out i := by
  obtain ⟨hlt, -⟩ := hinv.bounds hpv
  exact outByte_squeeze_of_le _ _ _ _ _ hlt.le hi

/-- In a sound state a squeeze changes `OUT` and `OCNT` alone. -/
theorem squeezeToOut_of_inv : squeezeToOut s =
    { s with out := (squeezeToOut s).out, ocnt := BitVec.ofNat 32 s.prm.digestBytes } := by
  have hlanes := squeezeToOut_lanes_of_inv hinv hpv
  exact congrArg (fun A => { s with
    lanes := A, out := (squeezeToOut s).out, ocnt := BitVec.ofNat 32 s.prm.digestBytes }) hlanes

end

/-- Settles O47: the digest is copied from the first bytes of `S`, and the rest of the state stays. -/
theorem squeezeCopiesDigest : Obligations.SqueezeCopiesDigest := by
  unfold Obligations.SqueezeCopiesDigest
  intro s hinv hphase hpv
  obtain ⟨-, -, hDB, -⟩ := hinv.bounds hpv
  refine ⟨(squeezeToOut s).out, fun i hi => ?_, fun i hlo hi => ?_, ?_⟩
  · rw [outByte_squeezeToOut hinv hpv (by omega), if_pos hi]
  · rw [outByte_squeezeToOut hinv hpv hi, if_neg (by omega)]
  · rw [exec_completes (i := .squeeze) (directWithParams_iff.mpr ⟨hphase, hpv⟩) rfl, State.completed, effectOf,
      squeezeToOut_of_inv hinv hpv]

/-- Settles O51: SP_SQUEEZE squeezes as SQUEEZE does, and a sound state in `SQUEEZING` has parameters. -/
theorem spSqueezeProducesDigest : Obligations.SpSqueezeProducesDigest := by
  unfold Obligations.SpSqueezeProducesDigest
  intro s hinv hphase
  have hpv : s.pv = true := hinv.pv_of_sponge (by simp [hphase])
  obtain ⟨-, -, hDB, -⟩ := hinv.bounds hpv
  refine ⟨(squeezeToOut s).out, fun i hi => ?_, fun i hlo hi => ?_, ?_⟩
  · rw [outByte_squeezeToOut hinv hpv (by omega), if_pos hi]
  · rw [outByte_squeezeToOut hinv hpv hi, if_neg (by omega)]
  · rw [exec_completes (i := .spSqueeze) (by simp [legalTest, hphase]) rfl, State.completed, effectOf,
      squeezeToOut_of_inv hinv hpv]

/-- Settles O46: ABSORB's XOR stops at `RB`, and the digest is shorter than `RB`. -/
theorem capacityRegionUntouched : Obligations.CapacityRegionUntouched := by
  unfold Obligations.CapacityRegionUntouched
  refine ⟨fun s t i h hi => ?_, fun s s' t t' hinv hs' hrate h h' => ?_⟩
  · rcases execAbsorb_cases h with ⟨-, rfl⟩ | ⟨-, rfl⟩
    · rfl
    · rcases Nat.lt_or_ge i 200 with hi200 | hi200
      · exact (stateByte_xorBlock _ _ _ _ hi200).trans (if_neg (by omega))
      · rw [stateByte_of_ge _ _ hi200, stateByte_of_ge _ _ hi200]
  · have hprm : s'.prm = s.prm := by rw [hs']
    have hpv : s'.pv = s.pv := by rw [hs']
    have hphase : s'.phase = s.phase := by rw [hs']
    have hout : s'.out = s.out := by rw [hs']
    have hinv' : s'.Inv := hinv.congr hprm hpv hphase (by rw [hs']) (by rw [hs']; exact hinv.ef_of_err)
    have hdirect : s'.directWithParams = s.directWithParams := by
      rw [State.directWithParams, State.directWithParams, hphase, hpv]
    rcases execSqueeze_cases h with ⟨hl, rfl⟩ | ⟨hl, rfl⟩ <;>
      rcases execSqueeze_cases h' with ⟨hl', rfl⟩ | ⟨hl', rfl⟩
    · exact hout
    · rw [hdirect, hl] at hl'; cases hl'
    · rw [hdirect, hl] at hl'; cases hl'
    · obtain ⟨-, hpvs⟩ := directWithParams_iff.mp hl
      obtain ⟨hlt, -⟩ := hinv.bounds hpvs
      refine out_ext fun i hi => ?_
      have hbyte := outByte_squeezeToOut hinv hpvs hi
      have hbyte' := outByte_squeezeToOut hinv' (hpv.trans hpvs) hi
      refine hbyte'.trans (Eq.trans ?_ hbyte.symm)
      rw [hprm, hout]
      split
      · exact hrate i (by omega)
      · rfl

/-! ### Parameters (R64, R65, R101) -/

/-- Settles O30: the identities hold in each of the four rows. -/
theorem parameterIdentities : Obligations.ParameterIdentities := by
  unfold Obligations.ParameterIdentities
  intro s hinv hpv
  obtain ⟨L, hL, hprm⟩ := hinv.prm_row hpv
  rw [hprm]
  simp only [legalLengths, List.mem_cons, List.not_mem_nil, or_false] at hL
  rcases hL with rfl | rfl | rfl | rfl <;> decide

/-- The rows of R64, as the formulas of R63 give them. -/
theorem prmOf_row {L rate cap : Nat}
    (h : (L, rate, cap) ∈ [(224, 1152, 448), (256, 1088, 512), (384, 832, 768), (512, 576, 1024)]) :
    L ∈ legalLengths ∧ prmOf L = ⟨BitVec.ofNat 32 L, BitVec.ofNat 32 rate, BitVec.ofNat 32 cap, 200⟩ := by
  simp only [List.mem_cons, Prod.mk.injEq, List.not_mem_nil, or_false] at h
  rcases h with ⟨rfl, rfl, rfl⟩ | ⟨rfl, rfl, rfl⟩ | ⟨rfl, rfl, rfl⟩ | ⟨rfl, rfl, rfl⟩ <;> exact ⟨by decide, rfl⟩

/-- Settles O29: each row of R64 is what the formulas of R63 give for a supported length. -/
theorem setlenLoadsParameters : Obligations.SetlenLoadsParameters := by
  unfold Obligations.SetlenLoadsParameters
  intro s L rate cap hrow hphase
  obtain ⟨hL, hprm⟩ := prmOf_row hrow
  rw [exec_completes (i := .setlen L) (direct_iff.mpr hphase) (if_pos hL), ← hprm]
  rfl

/-- Settles O49: SP_START loads the same row as SETLEN, and its State is the one ZERO leaves. -/
theorem spStartConstructsSponge : Obligations.SpStartConstructsSponge := by
  unfold Obligations.SpStartConstructsSponge
  intro s L rate cap hrow hphase
  obtain ⟨hL, hprm⟩ := prmOf_row hrow
  refine ⟨zeroLanes, lane_zeroLanes, ?_⟩
  rw [exec_completes (i := .spStart L) (direct_iff.mpr hphase) (if_pos hL), ← hprm]
  rfl

/-- Settles O52: SP_CLEAR has no test that could fail. -/
theorem spClearReentersUninit : Obligations.SpClearReentersUninit := by
  unfold Obligations.SpClearReentersUninit
  exact execSpClear_next

/-! ### SP_ABSORB (R105) -/

theorem exec_spAbsorb_absorbing {s : State} (last : Bool) (hphase : s.phase = .absorbing) :
    exec (.spAbsorb last) s = .next { absorbAndPermute last s with err := .eNone } :=
  exec_completes (i := .spAbsorb last) (by simp [legalTest, hphase]) rfl

/-- Settles O50: in direct mode ABSORB and PERMUTE compute the State that SP_ABSORB computes at once. -/
theorem spAbsorbIsAbsorbThenPermute : Obligations.SpAbsorbIsAbsorbThenPermute := by
  unfold Obligations.SpAbsorbIsAbsorbThenPermute
  intro s last hinv hphase
  have hpv : s.pv = true := hinv.pv_of_sponge (by simp [hphase])
  refine ⟨keccakF (xorBlock s.lanes (bufByte s.buf) s.prm.rateBytes), ?_, ?_⟩
  · exact runCommands_cons (exec_absorb_direct rfl hpv) (runCommands_cons (permute_applies _ rfl) rfl)
  · rw [exec_spAbsorb_absorbing last hphase, ← hphase]
    rfl

end Sys2Proof.Machine
end

section
/-! The host's sponge sequence and the digest it reaches (45_sponge_fsm.md R103, R110). -/

namespace Sys2Proof.Machine

/-- `s` with a sponge in phase `p` that has no digest yet (R101). -/
def State.sponge (s : State) (p : Phase) : State := { s with phase := p, ocnt := 0 }

/-! ### The sponge commands -/

theorem leads_spClear (s : State) : Leads [issue .spClear] s { s with phase := .uninit, err := .eNone } :=
  .issue (decodeEncodeAgree _ rfl) fun _ => rfl

theorem leads_spStart {L : Nat} {s : State} (hL : L ∈ legalLengths) (hphase : s.phase = .uninit) :
    Leads [issue (.spStart L)] s (hashing L (s.sponge .absorbing) zeroLanes s.buf) := by
  obtain ⟨-, hmax⟩ := legalLength_bounds hL
  have hwf : (Instr.spStart L).wellFormed = true := decide_eq_true (by omega)
  exact .issue (decodeEncodeAgree _ hwf) fun _ =>
    exec_completes (i := .spStart L) (direct_iff.mpr hphase) (if_pos hL)

/-- `SP_ABSORB`, with the block `blk` in `BUF` (R105). -/
theorem leads_spAbsorb {L RB : Nat} {blk : Nat → Byte} (s : State) (A : Lanes) (B : Vector Byte 144) (last : Bool)
    (hrate : (prmOf L).rateBytes = RB) (hblk : ∀ i, i < RB → bufByte B i = blk i) :
    Leads [issue (.spAbsorb last)] (hashing L (s.sponge .absorbing) A B)
      (hashing L (s.sponge (if last then .squeezing else .absorbing)) (keccakF (xorBlock A blk RB)) B) := by
  rw [← xorBlock_congr A RB hblk, ← hrate]
  exact .issue (decodeEncodeAgree _ rfl) fun _ => exec_spAbsorb_absorbing last rfl

/-- `SP_SQUEEZE` (R107). -/
theorem leads_spSqueeze {L : Nat} (s : State) (A : Lanes) (B : Vector Byte 144) :
    Leads [issue .spSqueeze] (hashing L (s.sponge .squeezing) A B)
      { squeezeToOut (hashing L (s.sponge .squeezing) A B) with phase := .done, err := .eNone } :=
  .issue (decodeEncodeAgree _ rfl) fun _ => exec_completes (i := .spSqueeze) rfl rfl

/-! ### The blocks of the message (R103) -/

theorem fullBlockMoves_succ (RB : Nat) (M : List Byte) (j : Nat) :
    fullBlockMoves RB M (j + 1) = fullBlockMoves RB M j ++
      (wrb bufBase ((M.drop (j * RB)).take RB) ++ [issue (.spAbsorb false)]) := by
  simp [fullBlockMoves, List.range_succ]

/-- The script in its parts: a fresh sponge, the full blocks, the last block, the digest. -/
theorem spongeScript_eq (L : Nat) (M : List Byte) {RB : Nat} (hRB : RB = (1600 - 2 * L) / 8) :
    spongeScript L M = ([issue .spClear] ++ [issue (.spStart L)]) ++ (fullBlockMoves RB M (M.length / RB) ++
      ((wrb bufBase (M.drop (M.length / RB * RB)) ++ ([issue (.pad (M.length % RB))] ++
        [issue (.spAbsorb true)])) ++ [issue .spSqueeze])) := by
  subst hRB
  simp [spongeScript]

section
variable {L RB : Nat} (s : State) (hrate : (prmOf L).rateBytes = RB) (hRB : RB ≤ 144) (M : List Byte)
include hrate hRB

/-- By induction on the blocks: the State is the sponge function's after each of them. -/
theorem leads_fullBlockMoves {j : Nat} (hj : j ≤ M.length / RB) :
    ∃ B, Leads (fullBlockMoves RB M j) (hashing L (s.sponge .absorbing) zeroLanes s.buf)
      (hashing L (s.sponge .absorbing) (absorbedBlocks RB M j) B) := by
  induction j with
  | zero => exact ⟨s.buf, .nil _⟩
  | succ j ih =>
    obtain ⟨B, hblocks⟩ := ih (by omega)
    have hfill := leads_wrb (hashing L (s.sponge .absorbing) (absorbedBlocks RB M j) B)
      ((M.drop (j * RB)).take RB) ((List.length_take_le _ _).trans hRB)
    have habsorb := leads_spAbsorb s (absorbedBlocks RB M j) _ false hrate
      fun i hi => bufByte_fullBlock B M hRB hj hi
    rw [fullBlockMoves_succ, absorbedBlocks_succ]
    exact ⟨_, hblocks.append (hfill.append habsorb)⟩

/-- The last block, padded by the core (R69), completes the sponge's State and ends the absorbing. -/
theorem leads_lastSpongeBlock (hpos : 0 < RB) (B : Vector Byte 144) :
    ∃ B', Leads (wrb bufBase (M.drop (M.length / RB * RB)) ++ ([issue (.pad (M.length % RB))] ++
        [issue (.spAbsorb true)]))
      (hashing L (s.sponge .absorbing) (absorbedBlocks RB M (M.length / RB)) B)
      (hashing L (s.sponge .squeezing) (spongeState RB M) B') := by
  have hmod : M.length % RB < RB := Nat.mod_lt _ hpos
  have hrest : (M.drop (M.length / RB * RB)).length = M.length % RB := by
    rw [List.length_drop, Nat.mod_eq_sub_div_mul]
  rw [spongeState_eq_absorbedBlocks, absorbedBlocks_succ]
  generalize absorbedBlocks RB M (M.length / RB) = A
  have hfill := leads_wrb (hashing L (s.sponge .absorbing) A B) (M.drop (M.length / RB * RB)) (by omega)
  have hpad := leads_pad (s.sponge .absorbing) A (bufWith B (M.drop (M.length / RB * RB))) hrate hmod (by omega)
  have habsorb := leads_spAbsorb s A _ true hrate
    fun i hi => bufByte_lastBlock B M (hashing L (s.sponge .absorbing) A (bufWith B _)) hRB rfl hi
  exact ⟨_, hfill.append (hpad.append habsorb)⟩

end

/-- The whole sequence of R110: its `SP_SQUEEZE` finds the sponge's final State in `S`. -/
theorem leads_spongeScript {L : Nat} (s : State) (hL : L ∈ legalLengths) (M : List Byte) :
    ∃ B, Leads (spongeScript L M) s
      { squeezeToOut (hashing L (s.sponge .squeezing) (spongeState ((1600 - 2 * L) / 8) M) B) with
        phase := .done, err := .eNone } := by
  have hrate := rateBytes_prmOf hL
  obtain ⟨hmin, hmax⟩ := legalLength_bounds hL
  obtain ⟨B, hblocks⟩ := leads_fullBlockMoves s hrate (by omega) M le_rfl
  obtain ⟨B', hlast⟩ := leads_lastSpongeBlock s hrate (by omega) M (by omega) B
  rw [spongeScript_eq L M rfl]
  exact ⟨B', ((leads_spClear s).append (leads_spStart hL rfl)).append
    (hblocks.append (hlast.append (leads_spSqueeze s _ _)))⟩

/-- Settles O56: the run ends in the State of the sponge by induction on the message's blocks, and SP_SQUEEZE copies the
digest from it; the phase the core was in is cleared first. -/
theorem spongeScriptComputesDigest : Obligations.SpongeScriptComputesDigest := by
  unfold Obligations.SpongeScriptComputesDigest
  intro L M s rest hL hp
  obtain ⟨B, hscript⟩ := leads_spongeScript s hL M
  obtain ⟨r, hrun⟩ := hscript.run hp
  obtain ⟨-, hmax⟩ := legalLength_bounds hL
  refine ⟨_, hrun, rfl, rfl, rfl, congrArg (BitVec.ofNat 32) (digestBytes_prmOf hL), fun i hi => ?_,
    fun i hlo hhi => ?_, rfl⟩
  · exact (outByte_squeeze_digest (s.sponge .squeezing) hL M B (by omega)).trans (if_pos hi)
  · exact (outByte_squeeze_digest (s.sponge .squeezing) hL M B hhi).trans (if_neg (by omega))

end Sys2Proof.Machine
end
